-- ==== Sys2Proof/Word.lean ====
section
/-! DEFINITION. The widths of the core: bytes (register contents, resolved operands), pairs of registers
and command words (10_state.md R10, R17; 30_encoding.md R47). All values are unsigned (00_scope.md section 5). -/

namespace Sys2Proof

/-- A register's contents or a resolved operand: 8 bits, values 0 to 255 (R10, R11). -/
abbrev Byte := BitVec 8

/-- A pair of registers seen as one number: 16 bits (R17). -/
abbrev Pair := BitVec 16

/-- A command word, presented whole (R47). It has no byte order of its own (R38). -/
abbrev Word := BitVec 32

end Sys2Proof
end

