-- ==== Sys2Proof/Syntax.lean ====
section
/-! DEFINITION. The names of the core: registers, flags, instruction kinds, formats, and `Instr`, one
constructor per row of spec/opcode_table.json. -/

namespace Sys2Proof

/-- The eight registers, in the order of their selector codes (10_state.md R10, R12). -/
inductive Reg where
  | a | b | c | d | e | h | l
  /-- The flags register (R13, R14). -/
  | f
  deriving DecidableEq, Repr

/-- The four flags, in the order of their selectors (R14, R27). -/
inductive Flag where
  | carry | halfCarry | subtract | zero
  deriving DecidableEq, Repr

/-- The 29 instruction kinds in the order of their codes (30_encoding.md R49). A kind whose name ends in `A`
acts on register A alone (R50). -/
inductive Kind where
  | add | addWithCarry | addHL | sub | subWithCarry | and | or | xor | compare
  | increment | decrement | complementCarry | setCarry | complement
  | rotateRight | rotateLeft | rotateRightA | rotateLeftA
  | rotateRightCarry | rotateLeftCarry | rotateRightCarryA | rotateLeftCarryA
  | shiftLeftArithmetic | shiftRightArithmetic | shiftRightLogical | swap
  | bitTest | bitSet | bitReset
  deriving DecidableEq, Repr

/-- The eight formats of a command word (R48): no operand; src register; src value; tgt register; pair;
the bit kinds with a src register, a src value, a tgt register. -/
inductive Format where
  | n | s | v | t | p | bs | bv | bt
  deriving DecidableEq, Repr

/-- The instructions, one constructor per row of spec/opcode_table.json. `…Reg` is the register-mode row and
`…Val` the value-mode row of a kind that has both (R51). The bit index is the 8-bit field as it stands in the
word; whether it is in its domain is checked when the command runs (R52, R57). -/
inductive Instr where
  | addReg (r : Reg)
  | addVal (v : Byte)
  | addWithCarryReg (r : Reg)
  | addWithCarryVal (v : Byte)
  | addHL (hi lo : Reg)
  | subReg (r : Reg)
  | subVal (v : Byte)
  | subWithCarryReg (r : Reg)
  | subWithCarryVal (v : Byte)
  | andReg (r : Reg)
  | andVal (v : Byte)
  | orReg (r : Reg)
  | orVal (v : Byte)
  | xorReg (r : Reg)
  | xorVal (v : Byte)
  | compareReg (r : Reg)
  | compareVal (v : Byte)
  | increment (r : Reg)
  | decrement (r : Reg)
  | complementCarry
  | setCarry
  | complement
  | rotateRight (r : Reg)
  | rotateLeft (r : Reg)
  | rotateRightA
  | rotateLeftA
  | rotateRightCarry (r : Reg)
  | rotateLeftCarry (r : Reg)
  | rotateRightCarryA
  | rotateLeftCarryA
  | shiftLeftArithmetic (r : Reg)
  | shiftRightArithmetic (r : Reg)
  | shiftRightLogical (r : Reg)
  | swap (r : Reg)
  | bitTestReg (b : BitVec 8) (r : Reg)
  | bitTestVal (b : BitVec 8) (v : Byte)
  | bitSet (b : BitVec 8) (r : Reg)
  | bitReset (b : BitVec 8) (r : Reg)
  deriving DecidableEq, Repr

end Sys2Proof
end

