-- ==== Sys2Proof/Decode.lean ====
section
/-! DEFINITION. The command word: its fields, the opcode table, the decoder and the encoder
(spec/30_encoding.md; spec/10_state.md R12). Every bit position and code here is the spec's decision (D1 to D4, D11). -/

namespace Sys2Proof

/-! ## Selectors -/

/-- The 3-bit code of a register (R12). -/
def Reg.code : Reg → BitVec 3
  | .a => 0 | .b => 1 | .c => 2 | .d => 3 | .e => 4 | .h => 5 | .l => 6 | .f => 7

/-- The register a 3-bit code names: every code names one (R12). -/
def Reg.ofCode (c : BitVec 3) : Reg :=
  match c.toNat with
  | 0 => .a | 1 => .b | 2 => .c | 3 => .d | 4 => .e | 5 => .h | 6 => .l | _ => .f

/-- The 2-bit selector of a flag: its bit position minus 4 (R27). -/
def Flag.selector : Flag → BitVec 2
  | .carry => 0 | .halfCarry => 1 | .subtract => 2 | .zero => 3

/-- The flag a 2-bit selector names: every selector names one (R27). -/
def Flag.ofSelector (c : BitVec 2) : Flag :=
  match c.toNat with
  | 0 => .carry | 1 => .halfCarry | 2 => .subtract | _ => .zero

/-- The kind code (R49). -/
def Kind.code : Kind → BitVec 8
  | .add => 0x01
  | .addWithCarry => 0x02
  | .addHL => 0x03
  | .sub => 0x04
  | .subWithCarry => 0x05
  | .and => 0x06
  | .or => 0x07
  | .xor => 0x08
  | .compare => 0x09
  | .increment => 0x0A
  | .decrement => 0x0B
  | .complementCarry => 0x0C
  | .setCarry => 0x0D
  | .complement => 0x0E
  | .rotateRight => 0x0F
  | .rotateLeft => 0x10
  | .rotateRightA => 0x11
  | .rotateLeftA => 0x12
  | .rotateRightCarry => 0x13
  | .rotateLeftCarry => 0x14
  | .rotateRightCarryA => 0x15
  | .rotateLeftCarryA => 0x16
  | .shiftLeftArithmetic => 0x17
  | .shiftRightArithmetic => 0x18
  | .shiftRightLogical => 0x19
  | .swap => 0x1A
  | .bitTest => 0x1B
  | .bitSet => 0x1C
  | .bitReset => 0x1D

/-- The 29 kinds (R49). -/
def Kind.all : List Kind :=
  [.add, .addWithCarry, .addHL, .sub, .subWithCarry, .and, .or, .xor, .compare, .increment, .decrement,
    .complementCarry, .setCarry, .complement] ++
  [.rotateRight, .rotateLeft, .rotateRightA, .rotateLeftA, .rotateRightCarry, .rotateLeftCarry,
    .rotateRightCarryA, .rotateLeftCarryA, .shiftLeftArithmetic, .shiftRightArithmetic, .shiftRightLogical,
    .swap, .bitTest, .bitSet, .bitReset]

/-- The kind a code names, if it names one: 0x00 and 0x1E to 0xFF name none (R49, R56). -/
def Kind.ofCode (c : BitVec 8) : Option Kind :=
  Kind.all.find? fun k => k.code == c

/-! ## The fields of a command word -/

/-- The fields of R47, from bit 31 down: `kind` 31:24, `b` 23:16, `m` 15, reserved 14, `hi` 13:11, `lo` 10:8,
`v` 7:0. -/
structure Fields where
  kind : BitVec 8
  b : BitVec 8
  m : BitVec 1
  reserved : BitVec 1
  hi : BitVec 3
  lo : BitVec 3
  v : BitVec 8
  deriving DecidableEq, Repr

/-- The fields of a word (R47). -/
def fieldsOf (w : Word) : Fields where
  kind := w.extractLsb' 24 8
  b := w.extractLsb' 16 8
  m := w.extractLsb' 15 1
  reserved := w.extractLsb' 14 1
  hi := w.extractLsb' 11 3
  lo := w.extractLsb' 8 3
  v := w.extractLsb' 0 8

/-- The word with these fields (R47). -/
def joinFields (f : Fields) : Word :=
  f.kind ++ f.b ++ f.m ++ f.reserved ++ f.hi ++ f.lo ++ f.v

/-- Every field the format does not use is zero, and `m` has the format's value (R48, R54). -/
def Format.fits : Format → Fields → Bool
  | .n, f => f.b == 0 && f.m == 0 && f.reserved == 0 && f.hi == 0 && f.lo == 0 && f.v == 0
  | .s, f => f.b == 0 && f.m == 0 && f.reserved == 0 && f.hi == 0 && f.v == 0
  | .v, f => f.b == 0 && f.m == 1 && f.reserved == 0 && f.hi == 0 && f.lo == 0
  | .t, f => f.b == 0 && f.m == 0 && f.reserved == 0 && f.hi == 0 && f.v == 0
  | .p, f => f.b == 0 && f.m == 0 && f.reserved == 0 && f.v == 0
  | .bs, f => f.m == 0 && f.reserved == 0 && f.hi == 0 && f.v == 0
  | .bv, f => f.m == 1 && f.reserved == 0 && f.hi == 0 && f.lo == 0
  | .bt, f => f.m == 0 && f.reserved == 0 && f.hi == 0 && f.v == 0

/-! ## The decoder -/

/-- Why a word matches no row (R56). The core answers all three alike (R98, R100); the names are the model's
(DESIGN CHOICE, log 12). -/
inductive Reject where
  /-- The kind code is 0x00 or 0x1E to 0xFF. -/
  | reservedKind (code : BitVec 8)
  /-- Value mode on a kind that has no value-mode row (R51). -/
  | noValueMode (k : Kind)
  /-- A field the format does not use is not zero (R54). -/
  | unusedFieldNonzero (k : Kind)
  deriving DecidableEq, Repr

/-- A kind of format N. -/
def decodeNone (k : Kind) (i : Instr) (f : Fields) : Except Reject Instr :=
  if f.m = 1 then .error (.noValueMode k)
  else if Format.n.fits f then .ok i
  else .error (.unusedFieldNonzero k)

/-- A kind with a register-mode and a value-mode row, formats S and V (R51). -/
def decodeSrc (k : Kind) (onReg : Reg → Instr) (onVal : Byte → Instr) (f : Fields) : Except Reject Instr :=
  if f.m = 1 then
    if Format.v.fits f then .ok (onVal f.v) else .error (.unusedFieldNonzero k)
  else if Format.s.fits f then .ok (onReg (Reg.ofCode f.lo))
  else .error (.unusedFieldNonzero k)

/-- A read-modify-write kind, format T: no value mode (R51). -/
def decodeTgt (k : Kind) (onReg : Reg → Instr) (f : Fields) : Except Reject Instr :=
  if f.m = 1 then .error (.noValueMode k)
  else if Format.t.fits f then .ok (onReg (Reg.ofCode f.lo))
  else .error (.unusedFieldNonzero k)

/-- AddHL, format P (R53). -/
def decodePair (k : Kind) (onPair : Reg → Reg → Instr) (f : Fields) : Except Reject Instr :=
  if f.m = 1 then .error (.noValueMode k)
  else if Format.p.fits f then .ok (onPair (Reg.ofCode f.hi) (Reg.ofCode f.lo))
  else .error (.unusedFieldNonzero k)

/-- BitTest, formats BS and BV (R51, R52). -/
def decodeBitSrc (k : Kind) (onReg : BitVec 8 → Reg → Instr) (onVal : BitVec 8 → Byte → Instr) (f : Fields) :
    Except Reject Instr :=
  if f.m = 1 then
    if Format.bv.fits f then .ok (onVal f.b f.v) else .error (.unusedFieldNonzero k)
  else if Format.bs.fits f then .ok (onReg f.b (Reg.ofCode f.lo))
  else .error (.unusedFieldNonzero k)

/-- BitSet and BitReset, format BT (R51, R52). -/
def decodeBitTgt (k : Kind) (onReg : BitVec 8 → Reg → Instr) (f : Fields) : Except Reject Instr :=
  if f.m = 1 then .error (.noValueMode k)
  else if Format.bt.fits f then .ok (onReg f.b (Reg.ofCode f.lo))
  else .error (.unusedFieldNonzero k)

/-- The instruction of a known kind, by the formats R49 gives the kind. -/
def decodeKind (k : Kind) (f : Fields) : Except Reject Instr :=
  match k with
  | .add => decodeSrc k .addReg .addVal f
  | .addWithCarry => decodeSrc k .addWithCarryReg .addWithCarryVal f
  | .addHL => decodePair k .addHL f
  | .sub => decodeSrc k .subReg .subVal f
  | .subWithCarry => decodeSrc k .subWithCarryReg .subWithCarryVal f
  | .and => decodeSrc k .andReg .andVal f
  | .or => decodeSrc k .orReg .orVal f
  | .xor => decodeSrc k .xorReg .xorVal f
  | .compare => decodeSrc k .compareReg .compareVal f
  | .increment => decodeTgt k .increment f
  | .decrement => decodeTgt k .decrement f
  | .complementCarry => decodeNone k .complementCarry f
  | .setCarry => decodeNone k .setCarry f
  | .complement => decodeNone k .complement f
  | .rotateRight => decodeTgt k .rotateRight f
  | .rotateLeft => decodeTgt k .rotateLeft f
  | .rotateRightA => decodeNone k .rotateRightA f
  | .rotateLeftA => decodeNone k .rotateLeftA f
  | .rotateRightCarry => decodeTgt k .rotateRightCarry f
  | .rotateLeftCarry => decodeTgt k .rotateLeftCarry f
  | .rotateRightCarryA => decodeNone k .rotateRightCarryA f
  | .rotateLeftCarryA => decodeNone k .rotateLeftCarryA f
  | .shiftLeftArithmetic => decodeTgt k .shiftLeftArithmetic f
  | .shiftRightArithmetic => decodeTgt k .shiftRightArithmetic f
  | .shiftRightLogical => decodeTgt k .shiftRightLogical f
  | .swap => decodeTgt k .swap f
  | .bitTest => decodeBitSrc k .bitTestReg .bitTestVal f
  | .bitSet => decodeBitTgt k .bitSet f
  | .bitReset => decodeBitTgt k .bitReset f

/-- The decoder: total, a function of the word alone (R55, R56). -/
def decode (w : Word) : Except Reject Instr :=
  match Kind.ofCode (fieldsOf w).kind with
  | none => .error (.reservedKind (fieldsOf w).kind)
  | some k => decodeKind k (fieldsOf w)

/-- The word of `nbits` bits whose value is `w`, with every higher bit zero. -/
def tableWord (nbits w : Nat) : Word :=
  BitVec.ofNat 32 (w % 2 ^ nbits)

/-- What the decoder reads from a table word: no row has more than 32 bits (R47, log 11). -/
def decodeTableWord (nbits w : Nat) : Option Instr :=
  if nbits ≤ 32 then
    match decode (tableWord nbits w) with
    | .ok i => some i
    | .error _ => none
  else none

/-! ## The encoder -/

/-- The kind of an instruction. -/
def Instr.kind : Instr → Kind
  | .addReg _ => .add
  | .addVal _ => .add
  | .addWithCarryReg _ => .addWithCarry
  | .addWithCarryVal _ => .addWithCarry
  | .addHL _ _ => .addHL
  | .subReg _ => .sub
  | .subVal _ => .sub
  | .subWithCarryReg _ => .subWithCarry
  | .subWithCarryVal _ => .subWithCarry
  | .andReg _ => .and
  | .andVal _ => .and
  | .orReg _ => .or
  | .orVal _ => .or
  | .xorReg _ => .xor
  | .xorVal _ => .xor
  | .compareReg _ => .compare
  | .compareVal _ => .compare
  | .increment _ => .increment
  | .decrement _ => .decrement
  | .complementCarry => .complementCarry
  | .setCarry => .setCarry
  | .complement => .complement
  | .rotateRight _ => .rotateRight
  | .rotateLeft _ => .rotateLeft
  | .rotateRightA => .rotateRightA
  | .rotateLeftA => .rotateLeftA
  | .rotateRightCarry _ => .rotateRightCarry
  | .rotateLeftCarry _ => .rotateLeftCarry
  | .rotateRightCarryA => .rotateRightCarryA
  | .rotateLeftCarryA => .rotateLeftCarryA
  | .shiftLeftArithmetic _ => .shiftLeftArithmetic
  | .shiftRightArithmetic _ => .shiftRightArithmetic
  | .shiftRightLogical _ => .shiftRightLogical
  | .swap _ => .swap
  | .bitTestReg _ _ => .bitTest
  | .bitTestVal _ _ => .bitTest
  | .bitSet _ _ => .bitSet
  | .bitReset _ _ => .bitReset

/-- The format of an instruction's row (R48, R49). -/
def Instr.format : Instr → Format
  | .addReg _ | .addWithCarryReg _ | .subReg _ | .subWithCarryReg _ | .andReg _ | .orReg _ | .xorReg _
  | .compareReg _ => .s
  | .addVal _ | .addWithCarryVal _ | .subVal _ | .subWithCarryVal _ | .andVal _ | .orVal _ | .xorVal _
  | .compareVal _ => .v
  | .addHL _ _ => .p
  | .increment _ | .decrement _ | .rotateRight _ | .rotateLeft _ | .rotateRightCarry _ | .rotateLeftCarry _
  | .shiftLeftArithmetic _ | .shiftRightArithmetic _ | .shiftRightLogical _ | .swap _ => .t
  | .complementCarry | .setCarry | .complement | .rotateRightA | .rotateLeftA | .rotateRightCarryA
  | .rotateLeftCarryA => .n
  | .bitTestReg _ _ => .bs
  | .bitTestVal _ _ => .bv
  | .bitSet _ _ | .bitReset _ _ => .bt

/-- The fields of a word of a kind with no operand (format N). -/
def fieldsNone (k : Kind) : Fields :=
  { kind := k.code, b := 0, m := 0, reserved := 0, hi := 0, lo := 0, v := 0 }

/-- Formats S and T: the register in `lo`. -/
def fieldsReg (k : Kind) (r : Reg) : Fields :=
  { fieldsNone k with lo := r.code }

/-- Format V: `m` is 1 and the byte in `v`. -/
def fieldsVal (k : Kind) (v : Byte) : Fields :=
  { fieldsNone k with m := 1, v := v }

/-- Format P: the pair in `hi` and `lo`. -/
def fieldsPair (k : Kind) (hi lo : Reg) : Fields :=
  { fieldsNone k with hi := hi.code, lo := lo.code }

/-- Formats BS and BT: the bit index in `b`, the register in `lo`. -/
def fieldsBitReg (k : Kind) (b : BitVec 8) (r : Reg) : Fields :=
  { fieldsNone k with b := b, lo := r.code }

/-- Format BV: the bit index in `b`, `m` is 1, the byte in `v`. -/
def fieldsBitVal (k : Kind) (b : BitVec 8) (v : Byte) : Fields :=
  { fieldsNone k with b := b, m := 1, v := v }

/-- The fields of an instruction's word (R48, R49). -/
def encodeFields (i : Instr) : Fields :=
  match i with
  | .addReg r | .addWithCarryReg r | .subReg r | .subWithCarryReg r | .andReg r | .orReg r | .xorReg r
  | .compareReg r | .increment r | .decrement r | .rotateRight r | .rotateLeft r | .rotateRightCarry r
  | .rotateLeftCarry r | .shiftLeftArithmetic r | .shiftRightArithmetic r | .shiftRightLogical r
  | .swap r => fieldsReg i.kind r
  | .addVal v | .addWithCarryVal v | .subVal v | .subWithCarryVal v | .andVal v | .orVal v | .xorVal v
  | .compareVal v => fieldsVal i.kind v
  | .addHL hi lo => fieldsPair i.kind hi lo
  | .complementCarry | .setCarry | .complement | .rotateRightA | .rotateLeftA | .rotateRightCarryA
  | .rotateLeftCarryA => fieldsNone i.kind
  | .bitTestReg b r | .bitSet b r | .bitReset b r => fieldsBitReg i.kind b r
  | .bitTestVal b v => fieldsBitVal i.kind b v

/-- The command word of an instruction. -/
def encode (i : Instr) : Word :=
  joinFields (encodeFields i)

/-! ## The opcode table -/

/-- One row of spec/opcode_table.json: its kind (the row's mnemonic), format, match and mask. -/
structure Row where
  kind : Kind
  format : Format
  bits : Word
  mask : Word
  deriving DecidableEq, Repr

/-- A word matches a row (R55). -/
def Row.accepts (row : Row) (w : Word) : Bool :=
  w &&& row.mask == row.bits

/-- The 38 rows of spec/opcode_table.json, its match and mask copied as they stand there. -/
def opcodeTable : List Row :=
  [⟨.add, .s, 0x01000000, 0xFFFFF8FF⟩, ⟨.add, .v, 0x01008000, 0xFFFFFF00⟩,
   ⟨.addWithCarry, .s, 0x02000000, 0xFFFFF8FF⟩, ⟨.addWithCarry, .v, 0x02008000, 0xFFFFFF00⟩,
   ⟨.addHL, .p, 0x03000000, 0xFFFFC0FF⟩,
   ⟨.sub, .s, 0x04000000, 0xFFFFF8FF⟩, ⟨.sub, .v, 0x04008000, 0xFFFFFF00⟩,
   ⟨.subWithCarry, .s, 0x05000000, 0xFFFFF8FF⟩, ⟨.subWithCarry, .v, 0x05008000, 0xFFFFFF00⟩] ++
  [⟨.and, .s, 0x06000000, 0xFFFFF8FF⟩, ⟨.and, .v, 0x06008000, 0xFFFFFF00⟩,
   ⟨.or, .s, 0x07000000, 0xFFFFF8FF⟩, ⟨.or, .v, 0x07008000, 0xFFFFFF00⟩,
   ⟨.xor, .s, 0x08000000, 0xFFFFF8FF⟩, ⟨.xor, .v, 0x08008000, 0xFFFFFF00⟩,
   ⟨.compare, .s, 0x09000000, 0xFFFFF8FF⟩, ⟨.compare, .v, 0x09008000, 0xFFFFFF00⟩,
   ⟨.increment, .t, 0x0A000000, 0xFFFFF8FF⟩, ⟨.decrement, .t, 0x0B000000, 0xFFFFF8FF⟩] ++
  [⟨.complementCarry, .n, 0x0C000000, 0xFFFFFFFF⟩, ⟨.setCarry, .n, 0x0D000000, 0xFFFFFFFF⟩,
   ⟨.complement, .n, 0x0E000000, 0xFFFFFFFF⟩,
   ⟨.rotateRight, .t, 0x0F000000, 0xFFFFF8FF⟩, ⟨.rotateLeft, .t, 0x10000000, 0xFFFFF8FF⟩,
   ⟨.rotateRightA, .n, 0x11000000, 0xFFFFFFFF⟩, ⟨.rotateLeftA, .n, 0x12000000, 0xFFFFFFFF⟩,
   ⟨.rotateRightCarry, .t, 0x13000000, 0xFFFFF8FF⟩, ⟨.rotateLeftCarry, .t, 0x14000000, 0xFFFFF8FF⟩,
   ⟨.rotateRightCarryA, .n, 0x15000000, 0xFFFFFFFF⟩, ⟨.rotateLeftCarryA, .n, 0x16000000, 0xFFFFFFFF⟩] ++
  [⟨.shiftLeftArithmetic, .t, 0x17000000, 0xFFFFF8FF⟩, ⟨.shiftRightArithmetic, .t, 0x18000000, 0xFFFFF8FF⟩,
   ⟨.shiftRightLogical, .t, 0x19000000, 0xFFFFF8FF⟩, ⟨.swap, .t, 0x1A000000, 0xFFFFF8FF⟩,
   ⟨.bitTest, .bs, 0x1B000000, 0xFF00F8FF⟩, ⟨.bitTest, .bv, 0x1B008000, 0xFF00FF00⟩,
   ⟨.bitSet, .bt, 0x1C000000, 0xFF00F8FF⟩, ⟨.bitReset, .bt, 0x1D000000, 0xFF00F8FF⟩]

end Sys2Proof
end

