-- ==== Sys2Proof/Config.lean ====
section
/-! DEFINITION. What an instance of the core fixes and the spec leaves open: one parameter, `BOOT`. -/

namespace Sys2Proof

/-- `BOOT`, the register values at reset, fixed per instance and OPEN in the spec (00_scope.md R7,
70_reset_and_hazards.md R109, D17, U2). It has no body: nothing in Lean can evaluate it, so a claim about the
model holds for every BOOT. DESIGN CHOICE, log 1 (an uninterpreted constant; the spec forbids assuming a value,
91_not_in_source.md N10). -/
opaque Config.boot : Reg → Byte

end Sys2Proof
end

