-- ==== Sys2Proof/Machine/State.lean ====
section
/-! DEFINITION. The state of the core: the register file (spec/10_state.md), beside the two fields with which the
model stands in for the caller (log 2, log 3); why a step could stop; the state after reset. -/

namespace Sys2Proof.Machine

/-- The register file: eight independent 8-bit registers (R2, R10). `f` is the flags byte, Zero@7, Subtract@6,
HalfCarry@5, Carry@4, bits 3 to 0 zero (R14, R15); `RegFile.get` and `RegFile.set` keep them so (log 7). -/
structure RegFile where
  a : Byte
  b : Byte
  c : Byte
  d : Byte
  e : Byte
  h : Byte
  l : Byte
  f : Byte
  deriving DecidableEq, Repr

/-- The four flags as values: what an instruction computes for F, and what F holds (R14, U3). -/
structure Flags where
  zero : Bool
  subtract : Bool
  halfCarry : Bool
  carry : Bool
  deriving DecidableEq, Repr

/-- What the caller may present, one at a time: a reset, a command word, or an operation of the access port
(00_scope.md R3, R6, R9; 10_state.md R20 to R26; 70_reset_and_hazards.md R111). -/
inductive Transaction where
  /-- Reset (R109, R111). -/
  | reset
  /-- `execute` with one command word (R47). -/
  | execute (cmd : Word)
  /-- `getRegister(r)` (R20). -/
  | getRegister (r : Reg)
  /-- `setRegister(r, v)` (R21). -/
  | setRegister (r : Reg) (v : Byte)
  /-- `getRegisterPair(hi, lo)` (R22). -/
  | getRegisterPair (hi lo : Reg)
  /-- `setRegisterPair(hi, lo, v)` (R23). -/
  | setRegisterPair (hi lo : Reg) (v : Pair)
  /-- `getFlag(f)` (R25). -/
  | getFlag (f : Flag)
  /-- `setFlag(value, f)`, the value first (R26). -/
  | setFlag (value : Bool) (f : Flag)
  deriving DecidableEq, Repr

/-- What a transaction answers (R59; R20, R22 and R25 for the three that return a value). -/
inductive Response where
  /-- `Done`, code 0. -/
  | done
  /-- `InvalidOperand`, code 1. -/
  | invalidOperand
  /-- The byte `getRegister` returns. -/
  | byte (v : Byte)
  /-- The 16-bit value `getRegisterPair` returns. -/
  | pair (v : Pair)
  /-- The flag `getFlag` returns. -/
  | flag (v : Bool)
  deriving DecidableEq, Repr

/-- The state. `regs` is all the state of the core (R18, R110). `pending` and `response` are the model's own, not
the core's: the transactions the caller has still to present, oldest first (R19, R42; log 2), and what the last
one served answered, which no step reads (R99; log 3). -/
structure State where
  regs : RegFile
  pending : List Transaction
  response : Option Response
  deriving DecidableEq, Repr

/-- Why the machine would stop with a fault: for no reason. The core's one fault condition, InvalidOperand, is a
response after which the next transaction runs normally (R96, R99, R101), so it is a next state here (log 4). -/
inductive Fault : Type where
  deriving DecidableEq, Repr

/-- Why an instruction would have no meaning in this model. -/
inductive Refusal where
  /-- Raised by nobody: every instruction has its meaning. It would be safe, since it only stops a run. -/
  | notModelled (mnemonic : String)
  deriving DecidableEq, Repr

/-- The register file after reset, from the boot values: `BOOT[r]`, and `BOOT[F] & 0xF0` in F (R109). -/
def RegFile.ofBoot (boot : Reg → Byte) : RegFile where
  a := boot .a
  b := boot .b
  c := boot .c
  d := boot .d
  e := boot .e
  h := boot .h
  l := boot .l
  f := boot .f &&& 0xF0#8

/-- The machine right after reset: the boot values of this instance (R109, R110; log 1), idle, with nothing
presented yet (R111; log 2, log 3). -/
def State.reset : State where
  regs := RegFile.ofBoot Config.boot
  pending := []
  response := none

end Sys2Proof.Machine
end

