-- ==== Sys2Proof/Machine/Flags.lean ====
section
/-! DEFINITION. The flags byte and every flag computation of the instruction rules, each on exact integers
(00_scope.md section 5; 40_arithmetic_logical.md R74). -/

namespace Sys2Proof.Machine

/-! ## The flags byte -/

/-- The position of a flag in F: Zero 7, Subtract 6, HalfCarry 5, Carry 4 (R14). -/
def flagBit : Flag → Nat
  | .zero => 7 | .subtract => 6 | .halfCarry => 5 | .carry => 4

/-- F for these four flags: `Z<<7 | N<<6 | H<<5 | C<<4`, bits 3 to 0 zero (R8, R14). -/
def Flags.toByte (fl : Flags) : Byte :=
  (if fl.zero then 0x80#8 else 0) ||| (if fl.subtract then 0x40#8 else 0) |||
    (if fl.halfCarry then 0x20#8 else 0) ||| (if fl.carry then 0x10#8 else 0)

/-- The four flags a byte of F holds (R14). -/
def Flags.ofByte (v : Byte) : Flags where
  zero := v.getLsbD (flagBit .zero)
  subtract := v.getLsbD (flagBit .subtract)
  halfCarry := v.getLsbD (flagBit .halfCarry)
  carry := v.getLsbD (flagBit .carry)

/-- A byte with one flag bit written: `(F & ~(1 << p)) | (value << p)` at the flag's position `p` (R27). -/
def withFlagBit (v : Byte) (f : Flag) (value : Bool) : Byte :=
  (v &&& ~~~(1#8 <<< flagBit f)) ||| (if value then 1#8 <<< flagBit f else 0)

/-! ## Nibbles -/

/-- The low nibble of a byte, bits 3 to 0. -/
def lowNibble (v : Byte) : Nat :=
  (v &&& 0x0F#8).toNat

/-- Bits 11 to 0 of a pair. -/
def lowTwelve (v : Pair) : Nat :=
  (v &&& 0x0FFF#16).toNat

/-! ## Flag computations -/

/-- Zero: the result is 0 (R63 to R73, R80, R89, R92). -/
def isZero (res : Byte) : Bool :=
  res == 0

/-- HalfCarry of an 8-bit addition: `(a & 0xF) + (x & 0xF) + cin > 0xF` (R63, R64). -/
def halfCarryOfAdd (a x : Byte) (cin : Bool) : Bool :=
  decide (lowNibble a + lowNibble x + cin.toNat > 0xF)

/-- Carry of an 8-bit addition: the exact sum exceeds 255 (R63, R64). -/
def carryOfAdd (a x : Byte) (cin : Bool) : Bool :=
  decide (a.toNat + x.toNat + cin.toNat > 255)

/-- HalfCarry of an 8-bit subtraction: `(a & 0xF) < (x & 0xF) + cin`, compared as integers (R66, R67, C6). -/
def halfBorrow (a x : Byte) (cin : Bool) : Bool :=
  decide (lowNibble a < lowNibble x + cin.toNat)

/-- Carry of an 8-bit subtraction: `x + cin > a`, compared as integers (R66, R67). -/
def borrow (a x : Byte) (cin : Bool) : Bool :=
  decide (x.toNat + cin.toNat > a.toNat)

/-- HalfCarry of the 16-bit addition: a carry out of bit 11 (R65, C6). -/
def halfCarryOfAddPair (p q : Pair) : Bool :=
  decide (lowTwelve p + lowTwelve q > 0x0FFF)

/-- Carry of the 16-bit addition: the exact sum exceeds 0xFFFF (R65). -/
def carryOfAddPair (p q : Pair) : Bool :=
  decide (p.toNat + q.toNat > 0xFFFF)

/-- HalfCarry of Increment: `(t & 0xF) + 1 > 0xF` (R72). -/
def halfCarryOfIncrement (t : Byte) : Bool :=
  decide (lowNibble t + 1 > 0xF)

/-- HalfCarry of Decrement: `(t & 0xF) < 1`, the low nibble borrows (R73). -/
def halfBorrowOfDecrement (t : Byte) : Bool :=
  decide (lowNibble t < 1)

end Sys2Proof.Machine
end

