-- ==== Sys2Proof/Machine/Ops.lean ====
section
/-! DEFINITION. The named operations over the register file, the two responses of a command, and the one fault
condition (spec/10_state.md; spec/30_encoding.md R58, R59; spec/60_exceptions.md). -/

namespace Sys2Proof.Machine

/-- What a transaction or an instruction ends in. -/
abbrev Result := Host.Outcome State Fault Refusal

/-! ## Registers -/

/-- Read of a register; the low nibble of F is hardwired to zero (R10, R15). -/
def RegFile.get (rf : RegFile) : Reg → Byte
  | .a => rf.a
  | .b => rf.b
  | .c => rf.c
  | .d => rf.d
  | .e => rf.e
  | .h => rf.h
  | .l => rf.l
  | .f => rf.f &&& 0xF0#8

/-- Write of a register; a write to F stores `v & 0xF0` (R10, R15). -/
def RegFile.set (rf : RegFile) (r : Reg) (v : Byte) : RegFile :=
  match r with
  | .a => { rf with a := v }
  | .b => { rf with b := v }
  | .c => { rf with c := v }
  | .d => { rf with d := v }
  | .e => { rf with e := v }
  | .h => { rf with h := v }
  | .l => { rf with l := v }
  | .f => { rf with f := v &&& 0xF0#8 }

/-- `R[r]`. -/
def readReg (r : Reg) (s : State) : Byte :=
  s.regs.get r

/-- `R[r] <- v`. -/
def writeReg (r : Reg) (v : Byte) (s : State) : State :=
  { s with regs := s.regs.set r v }

/-! ## Pairs -/

/-- Bits 15 to 8 of a pair (R17). -/
def highByte (v : Pair) : Byte :=
  v.extractLsb' 8 8

/-- Bits 7 to 0 of a pair (R17). -/
def lowByte (v : Pair) : Byte :=
  v.extractLsb' 0 8

/-- `PAIR(hi, lo)`, the first-named register high (R17, R38). -/
def readPair (hi lo : Reg) (s : State) : Pair :=
  readReg hi s ++ readReg lo s

/-- `R[hi] <- v[15:8]` and `R[lo] <- v[7:0]`, for two different registers (R23, R65). -/
def writePair (hi lo : Reg) (v : Pair) (s : State) : State :=
  writeReg lo (lowByte v) (writeReg hi (highByte v) s)

/-! ## Flags -/

/-- One flag bit of F (R25, R27). -/
def readFlag (f : Flag) (s : State) : Bool :=
  (readReg .f s).getLsbD (flagBit f)

/-- Write of one flag bit of F, the other flags kept (R26, R27). -/
def writeFlag (f : Flag) (value : Bool) (s : State) : State :=
  writeReg .f (withFlagBit (readReg .f s) f value) s

/-- The four flags of F (R14). -/
def readFlags (s : State) : Flags :=
  Flags.ofByte (readReg .f s)

/-- Write of all four flags of F (R14). -/
def writeFlags (fl : Flags) (s : State) : State :=
  writeReg .f fl.toByte s

/-! ## Responses -/

/-- The code of a response to a command: `Done` 0, `InvalidOperand` 1 (R59, R98). The values the access port
returns have no code. -/
def Response.code : Response → Option Nat
  | .done => some 0
  | .invalidOperand => some 1
  | .byte _ => none
  | .pair _ => none
  | .flag _ => none

/-- The transaction ends with this response (R59). -/
def answer (r : Response) (s : State) : State :=
  { s with response := some r }

/-- The transaction ends in Done. -/
def answerDone (s : State) : Result :=
  .next (answer .done s)

/-- `raise InvalidOperand`: the one fault condition. It is reported as the response and recorded nowhere in the
core; no register and no flag changes, nothing is saved, no handler is entered (R96, R98, R99, R101), and there
is nothing to return from (R103). -/
def invalidOperand (s : State) : Result :=
  .next (answer .invalidOperand s)

end Sys2Proof.Machine
end

