-- ==== Sys2Proof/Machine/Operands.lean ====
section
/-! DEFINITION. The operand forms of a command (spec/30_encoding.md R51 to R53, R57, R62) and the two shapes in which
a command writes its result (R58 steps 2 to 5). -/

namespace Sys2Proof.Machine

/-- `src8` in register mode: the register before the command, F included (R62). -/
def srcReg (r : Reg) (s : State) : Byte :=
  readReg r s

/-- `src8` in value mode: the byte the caller resolved; no register is read (R51, R62). -/
def srcVal (v : Byte) (_ : State) : Byte :=
  v

/-- AddHL's right operand, any two registers (R53). -/
def srcPair (hi lo : Reg) (s : State) : Pair :=
  readPair hi lo s

/-- R57 (a): the bit index is outside 0 to 7. -/
def bitIndexBad (b : BitVec 8) : Bool :=
  decide (b.toNat > 7)

/-- R57 (b): a read-modify-write register is F. -/
def targetBad (r : Reg) : Bool :=
  decide (r = .f)

/-- What an 8-bit operation computes: the result byte and the four flags. -/
structure Computed where
  res : Byte
  flags : Flags
  deriving DecidableEq, Repr

/-- R58 step 5 of a command that writes one register and the flags. -/
def commit (dst : Reg) (o : Computed) (s : State) : State :=
  writeFlags o.flags (writeReg dst o.res s)

/-- A command on the accumulator: its result goes to A (R13). -/
def onAccumulator (op : Byte → Flags → Computed) (s : State) : Result :=
  answerDone (commit .a (op (readReg .a s) (readFlags s)) s)

/-- A command of format T: F refused, else the register is read, computed on and written back (R57, R58). -/
def onTarget (r : Reg) (op : Byte → Flags → Computed) (s : State) : Result :=
  if targetBad r then invalidOperand s
  else answerDone (commit r (op (readReg r s) (readFlags s)) s)

/-- A command of format BT: a bit index above 7 or F refused, else the register is written and F is not (R57, R94). -/
def onTargetBit (b : BitVec 8) (r : Reg) (op : Byte → Byte) (s : State) : Result :=
  if bitIndexBad b || targetBad r then invalidOperand s
  else answerDone (writeReg r (op (readReg r s)) s)

end Sys2Proof.Machine
end

