-- ==== Sys2Proof/Machine/Arithmetic.lean ====
section
/-! DEFINITION. Arithmetic, logical, compare, increment and decrement instructions
(spec/40_arithmetic_logical.md R63 to R73). -/

namespace Sys2Proof.Machine

/-! ## The operations -/

/-- `a + x + cin`, mod 256, and its flags (R63, R64). -/
def sumOf (a x : Byte) (cin : Bool) : Computed :=
  let res := BitVec.ofNat 8 (a.toNat + x.toNat + cin.toNat)
  { res := res
    flags := { zero := isZero res, subtract := false,
               halfCarry := halfCarryOfAdd a x cin, carry := carryOfAdd a x cin } }

/-- `a - x - cin`, mod 256, and its flags (R66, R67). -/
def differenceOf (a x : Byte) (cin : Bool) : Computed :=
  let res := BitVec.ofInt 8 ((a.toNat : Int) - (x.toNat : Int) - (cin.toNat : Int))
  { res := res
    flags := { zero := isZero res, subtract := true,
               halfCarry := halfBorrow a x cin, carry := borrow a x cin } }

/-- A logical result: HalfCarry as the kind fixes it, Subtract and Carry cleared (R68). -/
def logicOf (res : Byte) (half : Bool) : Computed :=
  { res := res
    flags := { zero := isZero res, subtract := false, halfCarry := half, carry := false } }

/-- `t + 1` mod 256, Carry kept (R72). -/
def incrementOf (t : Byte) (fl : Flags) : Computed :=
  let res := BitVec.ofNat 8 (t.toNat + 1)
  { res := res
    flags := { zero := isZero res, subtract := false,
               halfCarry := halfCarryOfIncrement t, carry := fl.carry } }

/-- `t - 1` mod 256, Carry kept (R73). -/
def decrementOf (t : Byte) (fl : Flags) : Computed :=
  let res := BitVec.ofInt 8 ((t.toNat : Int) - 1)
  { res := res
    flags := { zero := isZero res, subtract := true,
               halfCarry := halfBorrowOfDecrement t, carry := fl.carry } }

/-- `hl + p` mod 65536 (R65). -/
def pairSum (hl p : Pair) : Pair :=
  BitVec.ofNat 16 (hl.toNat + p.toNat)

/-- The flags of the 16-bit addition; Zero from the 16-bit result (R65, C10; log 10). -/
def pairSumFlags (hl p : Pair) : Flags where
  zero := pairSum hl p == 0
  subtract := false
  halfCarry := halfCarryOfAddPair hl p
  carry := carryOfAddPair hl p

/-- Add with either form of its operand (R63). -/
def addToA (x : Byte) (s : State) : Result :=
  onAccumulator (fun a _ => sumOf a x false) s

/-- AddWithCarry with either form of its operand: the carry in is the Carry flag before the command (R64). -/
def addWithCarryToA (x : Byte) (s : State) : Result :=
  onAccumulator (fun a fl => sumOf a x fl.carry) s

/-- Sub with either form of its operand (R66). -/
def subFromA (x : Byte) (s : State) : Result :=
  onAccumulator (fun a _ => differenceOf a x false) s

/-- SubWithCarry with either form of its operand (R67). -/
def subWithCarryFromA (x : Byte) (s : State) : Result :=
  onAccumulator (fun a fl => differenceOf a x fl.carry) s

/-- Compare with either form of its operand: Sub's flags, no result stored (R71). -/
def compareWithA (x : Byte) (s : State) : Result :=
  answerDone (writeFlags (differenceOf (readReg .a s) x false).flags s)

/-! ## The meanings -/

/-- Add, register mode (R63). -/
def execAddReg (r : Reg) (s : State) : Result := addToA (srcReg r s) s

/-- Add, value mode (R63). -/
def execAddVal (v : Byte) (s : State) : Result := addToA (srcVal v s) s

/-- AddWithCarry, register mode (R64). -/
def execAddWithCarryReg (r : Reg) (s : State) : Result := addWithCarryToA (srcReg r s) s

/-- AddWithCarry, value mode (R64). -/
def execAddWithCarryVal (v : Byte) (s : State) : Result := addWithCarryToA (srcVal v s) s

/-- AddHL: the pair is read before H and L are written (R65, R116). -/
def execAddHL (hi lo : Reg) (s : State) : Result :=
  let hl := readPair .h .l s
  let p := srcPair hi lo s
  answerDone (writeFlags (pairSumFlags hl p) (writePair .h .l (pairSum hl p) s))

/-- Sub, register mode (R66). -/
def execSubReg (r : Reg) (s : State) : Result := subFromA (srcReg r s) s

/-- Sub, value mode (R66). -/
def execSubVal (v : Byte) (s : State) : Result := subFromA (srcVal v s) s

/-- SubWithCarry, register mode (R67). -/
def execSubWithCarryReg (r : Reg) (s : State) : Result := subWithCarryFromA (srcReg r s) s

/-- SubWithCarry, value mode (R67). -/
def execSubWithCarryVal (v : Byte) (s : State) : Result := subWithCarryFromA (srcVal v s) s

/-- And, register mode: HalfCarry set (R68). -/
def execAndReg (r : Reg) (s : State) : Result :=
  onAccumulator (fun a _ => logicOf (a &&& srcReg r s) true) s

/-- And, value mode (R68). -/
def execAndVal (v : Byte) (s : State) : Result :=
  onAccumulator (fun a _ => logicOf (a &&& srcVal v s) true) s

/-- Or, register mode (R69). -/
def execOrReg (r : Reg) (s : State) : Result :=
  onAccumulator (fun a _ => logicOf (a ||| srcReg r s) false) s

/-- Or, value mode (R69). -/
def execOrVal (v : Byte) (s : State) : Result :=
  onAccumulator (fun a _ => logicOf (a ||| srcVal v s) false) s

/-- Xor, register mode (R70). -/
def execXorReg (r : Reg) (s : State) : Result :=
  onAccumulator (fun a _ => logicOf (a ^^^ srcReg r s) false) s

/-- Xor, value mode (R70). -/
def execXorVal (v : Byte) (s : State) : Result :=
  onAccumulator (fun a _ => logicOf (a ^^^ srcVal v s) false) s

/-- Compare, register mode (R71). -/
def execCompareReg (r : Reg) (s : State) : Result := compareWithA (srcReg r s) s

/-- Compare, value mode (R71). -/
def execCompareVal (v : Byte) (s : State) : Result := compareWithA (srcVal v s) s

/-- Increment (R72). -/
def execIncrement (r : Reg) (s : State) : Result := onTarget r incrementOf s

/-- Decrement (R73). -/
def execDecrement (r : Reg) (s : State) : Result := onTarget r decrementOf s

end Sys2Proof.Machine
end

