-- ==== Sys2Proof/Machine/Bit.lean ====
section
/-! DEFINITION. BitTest, BitSet and BitReset (spec/43_bit.md R93 to R95). -/

namespace Sys2Proof.Machine

/-- The byte with bit `b` set and no other. -/
def bitMask (b : BitVec 8) : Byte :=
  1#8 <<< b.toNat

/-- BitTest with either form of its operand: Zero is the complement of the tested bit, Subtract cleared, HalfCarry
set, Carry kept (R93). -/
def testBit (b : BitVec 8) (x : Byte) (s : State) : Result :=
  if bitIndexBad b then invalidOperand s
  else answerDone (writeFlags
    { readFlags s with zero := !x.getLsbD b.toNat, subtract := false, halfCarry := true } s)

/-- BitTest, register mode (R93). -/
def execBitTestReg (b : BitVec 8) (r : Reg) (s : State) : Result := testBit b (srcReg r s) s

/-- BitTest, value mode (R93). -/
def execBitTestVal (b : BitVec 8) (v : Byte) (s : State) : Result := testBit b (srcVal v s) s

/-- BitSet: `R[tgt] | (1 << b)`, no flag affected (R94). -/
def execBitSet (b : BitVec 8) (r : Reg) (s : State) : Result :=
  onTargetBit b r (fun t => t ||| bitMask b) s

/-- BitReset: `R[tgt] & ~(1 << b)`, no flag affected (R95). -/
def execBitReset (b : BitVec 8) (r : Reg) (s : State) : Result :=
  onTargetBit b r (fun t => t &&& ~~~bitMask b) s

end Sys2Proof.Machine
end

