-- ==== Sys2Proof/Machine/FlagOnly.lean ====
section
/-! DEFINITION. ComplementCarry, SetCarry and Complement (spec/41_flag_only.md R77 to R79). -/

namespace Sys2Proof.Machine

/-- Carry inverted, Subtract and HalfCarry cleared, Zero kept (R77). -/
def execComplementCarry (s : State) : Result :=
  answerDone (writeFlags
    { readFlags s with subtract := false, halfCarry := false, carry := !(readFlags s).carry } s)

/-- Carry set, Subtract and HalfCarry cleared, Zero kept (R78). -/
def execSetCarry (s : State) : Result :=
  answerDone (writeFlags { readFlags s with subtract := false, halfCarry := false, carry := true } s)

/-- A complemented, Subtract and HalfCarry set, Zero and Carry kept (R79). -/
def execComplement (s : State) : Result :=
  onAccumulator (fun a fl => { res := ~~~a, flags := { fl with subtract := true, halfCarry := true } }) s

end Sys2Proof.Machine
end

