-- ==== Sys2Proof/Machine/Rotate.lean ====
section
/-! DEFINITION. Rotates, shifts and Swap (spec/42_rotate_shift_swap.md R80 to R92). A kind whose name ends in `Carry`
is the one that does not rotate through the Carry flag. -/

namespace Sys2Proof.Machine

/-! ## The operations -/

/-- A result with the bit shifted out: Subtract and HalfCarry cleared, Zero from the result. -/
def shifted (res : Byte) (out : Bool) : Computed :=
  { res := res
    flags := { zero := isZero res, subtract := false, halfCarry := false, carry := out } }

/-- The accumulator-only form of an operation: the same with Zero cleared (R50, R82). -/
def zeroCleared (o : Computed) : Computed :=
  { o with flags := { o.flags with zero := false } }

/-- A byte with bit 7 replaced after a right shift by one: `(top << 7) | (t >> 1)`. -/
def shiftRightIn (t : Byte) (top : Bool) : Byte :=
  (if top then 0x80#8 else 0) ||| (t >>> 1)

/-- A byte with bit 0 replaced after a left shift by one: `((t << 1) & 0xFF) | low`. -/
def shiftLeftIn (t : Byte) (low : Bool) : Byte :=
  (t <<< 1) ||| (if low then 0x01#8 else 0)

/-- Nine bits rotate right through Carry (R80). -/
def rotateRightOf (t : Byte) (fl : Flags) : Computed :=
  shifted (shiftRightIn t fl.carry) (t.getLsbD 0)

/-- Nine bits rotate left through Carry (R81). -/
def rotateLeftOf (t : Byte) (fl : Flags) : Computed :=
  shifted (shiftLeftIn t fl.carry) (t.getLsbD 7)

/-- Eight bits rotate right, the wrapped bit copied to Carry; Zero by D8 (R84; log 8). -/
def rotateRightCarryOf (t : Byte) (_ : Flags) : Computed :=
  shifted (shiftRightIn t (t.getLsbD 0)) (t.getLsbD 0)

/-- Eight bits rotate left, the wrapped bit copied to Carry; Zero by D8 (R85; log 8). -/
def rotateLeftCarryOf (t : Byte) (_ : Flags) : Computed :=
  shifted (shiftLeftIn t (t.getLsbD 7)) (t.getLsbD 7)

/-- Left shift, 0 into bit 0 (R89). -/
def shiftLeftArithmeticOf (t : Byte) (_ : Flags) : Computed :=
  shifted (shiftLeftIn t false) (t.getLsbD 7)

/-- Right shift that keeps bit 7: `(t & 0x80) | (t >> 1)` (R90). -/
def shiftRightArithmeticOf (t : Byte) (_ : Flags) : Computed :=
  shifted ((t &&& 0x80#8) ||| (t >>> 1)) (t.getLsbD 0)

/-- Right shift, 0 into bit 7 (R91). -/
def shiftRightLogicalOf (t : Byte) (_ : Flags) : Computed :=
  shifted (shiftRightIn t false) (t.getLsbD 0)

/-- The nibbles exchanged, Carry cleared (R92). -/
def swapOf (t : Byte) (_ : Flags) : Computed :=
  shifted ((t <<< 4) ||| (t >>> 4)) false

/-! ## The meanings -/

/-- RotateRight (R80). -/
def execRotateRight (r : Reg) (s : State) : Result := onTarget r rotateRightOf s

/-- RotateLeft (R81). -/
def execRotateLeft (r : Reg) (s : State) : Result := onTarget r rotateLeftOf s

/-- RotateRightA (R82). -/
def execRotateRightA (s : State) : Result := onAccumulator (fun t fl => zeroCleared (rotateRightOf t fl)) s

/-- RotateLeftA (R83). -/
def execRotateLeftA (s : State) : Result := onAccumulator (fun t fl => zeroCleared (rotateLeftOf t fl)) s

/-- RotateRightCarry (R84). -/
def execRotateRightCarry (r : Reg) (s : State) : Result := onTarget r rotateRightCarryOf s

/-- RotateLeftCarry (R85). -/
def execRotateLeftCarry (r : Reg) (s : State) : Result := onTarget r rotateLeftCarryOf s

/-- RotateRightCarryA (R86; log 9). -/
def execRotateRightCarryA (s : State) : Result :=
  onAccumulator (fun t fl => zeroCleared (rotateRightCarryOf t fl)) s

/-- RotateLeftCarryA (R87; log 9). -/
def execRotateLeftCarryA (s : State) : Result :=
  onAccumulator (fun t fl => zeroCleared (rotateLeftCarryOf t fl)) s

/-- ShiftLeftArithmetic (R89). -/
def execShiftLeftArithmetic (r : Reg) (s : State) : Result := onTarget r shiftLeftArithmeticOf s

/-- ShiftRightArithmetic (R90). -/
def execShiftRightArithmetic (r : Reg) (s : State) : Result := onTarget r shiftRightArithmeticOf s

/-- ShiftRightLogical (R91). -/
def execShiftRightLogical (r : Reg) (s : State) : Result := onTarget r shiftRightLogicalOf s

/-- Swap (R92). -/
def execSwap (r : Reg) (s : State) : Result := onTarget r swapOf s

end Sys2Proof.Machine
end

