-- ==== Sys2Proof/Machine/Dispatch.lean ====
section
/-! DEFINITION. The dispatch of a decoded instruction to its handler (spec/30_encoding.md R55): one arm per constructor. -/

namespace Sys2Proof.Machine

def exec (i : Instr) (s : State) : Host.Outcome State Fault Refusal :=
  match i with
  | .addReg r => Sys2Proof.Machine.execAddReg r s
  | .addVal v => Sys2Proof.Machine.execAddVal v s
  | .addWithCarryReg r => Sys2Proof.Machine.execAddWithCarryReg r s
  | .addWithCarryVal v => Sys2Proof.Machine.execAddWithCarryVal v s
  | .addHL hi lo => Sys2Proof.Machine.execAddHL hi lo s
  | .subReg r => Sys2Proof.Machine.execSubReg r s
  | .subVal v => Sys2Proof.Machine.execSubVal v s
  | .subWithCarryReg r => Sys2Proof.Machine.execSubWithCarryReg r s
  | .subWithCarryVal v => Sys2Proof.Machine.execSubWithCarryVal v s
  | .andReg r => Sys2Proof.Machine.execAndReg r s
  | .andVal v => Sys2Proof.Machine.execAndVal v s
  | .orReg r => Sys2Proof.Machine.execOrReg r s
  | .orVal v => Sys2Proof.Machine.execOrVal v s
  | .xorReg r => Sys2Proof.Machine.execXorReg r s
  | .xorVal v => Sys2Proof.Machine.execXorVal v s
  | .compareReg r => Sys2Proof.Machine.execCompareReg r s
  | .compareVal v => Sys2Proof.Machine.execCompareVal v s
  | .increment r => Sys2Proof.Machine.execIncrement r s
  | .decrement r => Sys2Proof.Machine.execDecrement r s
  | .complementCarry => Sys2Proof.Machine.execComplementCarry s
  | .setCarry => Sys2Proof.Machine.execSetCarry s
  | .complement => Sys2Proof.Machine.execComplement s
  | .rotateRight r => Sys2Proof.Machine.execRotateRight r s
  | .rotateLeft r => Sys2Proof.Machine.execRotateLeft r s
  | .rotateRightA => Sys2Proof.Machine.execRotateRightA s
  | .rotateLeftA => Sys2Proof.Machine.execRotateLeftA s
  | .rotateRightCarry r => Sys2Proof.Machine.execRotateRightCarry r s
  | .rotateLeftCarry r => Sys2Proof.Machine.execRotateLeftCarry r s
  | .rotateRightCarryA => Sys2Proof.Machine.execRotateRightCarryA s
  | .rotateLeftCarryA => Sys2Proof.Machine.execRotateLeftCarryA s
  | .shiftLeftArithmetic r => Sys2Proof.Machine.execShiftLeftArithmetic r s
  | .shiftRightArithmetic r => Sys2Proof.Machine.execShiftRightArithmetic r s
  | .shiftRightLogical r => Sys2Proof.Machine.execShiftRightLogical r s
  | .swap r => Sys2Proof.Machine.execSwap r s
  | .bitTestReg b r => Sys2Proof.Machine.execBitTestReg b r s
  | .bitTestVal b v => Sys2Proof.Machine.execBitTestVal b v s
  | .bitSet b r => Sys2Proof.Machine.execBitSet b r s
  | .bitReset b r => Sys2Proof.Machine.execBitReset b r s

end Sys2Proof.Machine
end

