-- ==== Sys2Proof/Machine/Transact.lean ====
section
/-! DEFINITION. Serving one transaction: a command word, an operation of the access port, or a reset
(spec/10_state.md section 4; spec/30_encoding.md section 3; spec/70_reset_and_hazards.md section 1). -/

namespace Sys2Proof.Machine

/-- `execute(CMD)`: decode; a word that matches no row is answered InvalidOperand; else its handler runs, with
R57's domain checks first (R55, R56, R58). -/
def executeCommand (cmd : Word) (s : State) : Result :=
  match decode cmd with
  | .ok i => exec i s
  | .error _ => invalidOperand s

/-- Reset, applied at any time between transactions: exactly the state after reset, whatever was before; the caller's
stream is not the core's and stays (R109, R111; log 2, log 3). -/
def resetCore (s : State) : State :=
  { State.reset with pending := s.pending }

/-- `getRegister(r)` (R20). -/
def getRegister (r : Reg) (s : State) : Result :=
  .next (answer (.byte (readReg r s)) s)

/-- `setRegister(r, v)`: no flag is computed, never InvalidOperand (R21). -/
def setRegister (r : Reg) (v : Byte) (s : State) : Result :=
  answerDone (writeReg r v s)

/-- `getRegisterPair(hi, lo)`, for all 64 pairs (R22). -/
def getRegisterPair (hi lo : Reg) (s : State) : Result :=
  .next (answer (.pair (readPair hi lo s)) s)

/-- `setRegisterPair(hi, lo, v)`: InvalidOperand when both halves name one register (R23; log 18). -/
def setRegisterPair (hi lo : Reg) (v : Pair) (s : State) : Result :=
  if hi = lo then invalidOperand s else answerDone (writePair hi lo v s)

/-- `getFlag(f)` (R25). -/
def getFlag (f : Flag) (s : State) : Result :=
  .next (answer (.flag (readFlag f s)) s)

/-- `setFlag(value, f)`: never InvalidOperand (R26). -/
def setFlag (value : Bool) (f : Flag) (s : State) : Result :=
  answerDone (writeFlag f value s)

/-- One transaction, served to completion (R6, R40, R119). -/
def serve (t : Transaction) (s : State) : Result :=
  match t with
  | .reset => .next (resetCore s)
  | .execute cmd => executeCommand cmd s
  | .getRegister r => getRegister r s
  | .setRegister r v => setRegister r v s
  | .getRegisterPair hi lo => getRegisterPair hi lo s
  | .setRegisterPair hi lo v => setRegisterPair hi lo v s
  | .getFlag f => getFlag f s
  | .setFlag value f => setFlag value f s

/-- The oldest pending transaction is taken and served (R42); with none pending the core is idle and keeps its state
(R102, R108, R111; log 5). -/
def serveNext (s : State) : Result :=
  match s.pending with
  | [] => .next s
  | t :: rest => serve t { s with pending := rest }

end Sys2Proof.Machine
end

