-- ==== Sys2Proof/Machine/Step.lean ====
section
/-! DEFINITION. One step: one transaction of the caller's, or idling. -/

namespace Sys2Proof.Machine

/-- One step of the core. -/
def step (s : State) : Host.Outcome State Fault Refusal :=
  serveNext s

/-- The state with this command word presented before all that is pending, so that the next step runs it. The core
fetches nothing (R19, R44); presenting a word is the caller's move (R47; log 6). -/
def State.withFetchWord (s : State) (nbits w : Nat) : State :=
  { s with pending := .execute (tableWord nbits w) :: s.pending }

end Sys2Proof.Machine
end

