-- ==== Sys2Proof/WellFormed.lean ====
section
/-! DEFINITION. The operand-domain checks of a command that matches a row (30_encoding.md R57): (a) a bit index
is 0 to 7; (b) a register that is read and written is not F. Everything else an operand could get wrong is
unrepresentable in `Instr` (R12, 60_exceptions.md R104). -/

namespace Sys2Proof

/-- The bit index of a command of format BS, BV or BT (R48, R52). -/
def Instr.bitIndex : Instr → Option (BitVec 8)
  | .bitTestReg b _ | .bitTestVal b _ | .bitSet b _ | .bitReset b _ => some b
  | .addReg _ | .addVal _ | .addWithCarryReg _ | .addWithCarryVal _ | .addHL _ _
  | .subReg _ | .subVal _ | .subWithCarryReg _ | .subWithCarryVal _
  | .andReg _ | .andVal _ | .orReg _ | .orVal _ | .xorReg _ | .xorVal _
  | .compareReg _ | .compareVal _ | .increment _ | .decrement _
  | .complementCarry | .setCarry | .complement
  | .rotateRight _ | .rotateLeft _ | .rotateRightA | .rotateLeftA
  | .rotateRightCarry _ | .rotateLeftCarry _ | .rotateRightCarryA | .rotateLeftCarryA
  | .shiftLeftArithmetic _ | .shiftRightArithmetic _ | .shiftRightLogical _ | .swap _ => none

/-- The tgt register of a command of format T or BT: the register it reads and writes (R48, R57). -/
def Instr.target : Instr → Option Reg
  | .increment r | .decrement r | .rotateRight r | .rotateLeft r
  | .rotateRightCarry r | .rotateLeftCarry r
  | .shiftLeftArithmetic r | .shiftRightArithmetic r | .shiftRightLogical r | .swap r
  | .bitSet _ r | .bitReset _ r => some r
  | .addReg _ | .addVal _ | .addWithCarryReg _ | .addWithCarryVal _ | .addHL _ _
  | .subReg _ | .subVal _ | .subWithCarryReg _ | .subWithCarryVal _
  | .andReg _ | .andVal _ | .orReg _ | .orVal _ | .xorReg _ | .xorVal _
  | .compareReg _ | .compareVal _ | .complementCarry | .setCarry | .complement
  | .rotateRightA | .rotateLeftA | .rotateRightCarryA | .rotateLeftCarryA
  | .bitTestReg _ _ | .bitTestVal _ _ => none

/-- R57 (a): the bit index, where there is one, is 0 to 7. -/
def Instr.bitIndexInDomain (i : Instr) : Bool :=
  match i.bitIndex with
  | none => true
  | some b => decide (b.toNat ≤ 7)

/-- R57 (b): the tgt register, where there is one, is not F. -/
def Instr.targetInDomain (i : Instr) : Bool :=
  match i.target with
  | none => true
  | some r => decide (r ≠ .f)

/-- Both domain checks of R57. -/
def Instr.wellFormed (i : Instr) : Bool :=
  i.bitIndexInDomain && i.targetInDomain

end Sys2Proof
end

