-- ==== Sys2Proof/Safety.lean ====
section
/-! DEFINITION. The terms in which statements about the core are made: the invariant of its state, what a served
command may leave changed, the command words written from R48's formats, the reads/writes table of R28, and the
causes of InvalidOperand (R97). No definition of the machine uses this file. -/

namespace Sys2Proof.Machine

/-! ## The invariant -/

/-- The stored byte of F has a zero low nibble (10_state.md R15, R16): no two register files that read alike differ. -/
abbrev State.LowNibbleClear (s : State) : Prop :=
  s.regs.f &&& 0x0F#8 = 0

/-! ## Values of registers as numbers -/

/-- A register's value, 0 to 255 (R11). -/
def regNat (r : Reg) (s : State) : Nat :=
  (readReg r s).toNat

/-- The value of a pair, the first-named register high: 0 to 65535 (R17). -/
def pairNat (hi lo : Reg) (s : State) : Nat :=
  regNat hi s * 256 + regNat lo s

/-! ## What a command leaves -/

/-- `t` comes after a command served from `s` that wrote no register outside `dst`: every other register reads as
before (F, with its flags, among them unless it is in `dst`), the caller's stream is untouched, the answer is
Done (R28, R59). -/
structure OnlyWrites (dst : List Reg) (s t : State) : Prop where
  others : ∀ q, q ∉ dst → readReg q t = readReg q s
  stream : t.pending = s.pending
  answered : t.response = some .done

/-- The four flags of F. -/
structure FlagsAre (t : State) (z n h c : Bool) : Prop where
  zero : readFlag .zero t = z
  subtract : readFlag .subtract t = n
  halfCarry : readFlag .halfCarry t = h
  carry : readFlag .carry t = c

/-- The word decodes to the instruction, and the instruction answers a next state of which `P` holds. -/
def Completes (w : Word) (i : Instr) (s : State) (P : State → Prop) : Prop :=
  decode w = .ok i ∧ ∃ t, exec i s = .next t ∧ P t

/-- The word decodes to the instruction, and the instruction is answered InvalidOperand with nothing else changed. -/
def RefusedUnchanged (w : Word) (i : Instr) (s : State) : Prop :=
  decode w = .ok i ∧ exec i s = .next { s with response := some .invalidOperand }

/-! ## Command words, by format (R48) -/

/-- Format N: the kind code in bits 31:24. -/
def wordNone (k : BitVec 8) : Word :=
  k.setWidth 32 <<< 24

/-- Formats S and T: the register code in bits 10:8. -/
def wordReg (k : BitVec 8) (r : Reg) : Word :=
  wordNone k ||| (r.code.setWidth 32 <<< 8)

/-- Format V: bit 15, and the byte in bits 7:0. -/
def wordVal (k : BitVec 8) (v : Byte) : Word :=
  wordNone k ||| 0x8000#32 ||| v.setWidth 32

/-- Format P: the register codes in bits 13:11 and 10:8. -/
def wordPair (k : BitVec 8) (hi lo : Reg) : Word :=
  wordNone k ||| (hi.code.setWidth 32 <<< 11) ||| (lo.code.setWidth 32 <<< 8)

/-- Formats BS and BT: the bit index in bits 23:16, the register code in bits 10:8. -/
def wordBitReg (k b : BitVec 8) (r : Reg) : Word :=
  wordNone k ||| (b.setWidth 32 <<< 16) ||| (r.code.setWidth 32 <<< 8)

/-- Format BV: the bit index in bits 23:16, bit 15, and the byte in bits 7:0. -/
def wordBitVal (k b : BitVec 8) (v : Byte) : Word :=
  wordNone k ||| (b.setWidth 32 <<< 16) ||| 0x8000#32 ||| v.setWidth 32

/-! ## All forms of a kind -/

/-- A src kind completes in register mode for every register and in value mode for every byte; `P` is told the
operand's value (R51, R62). -/
def CompletesInBothModes (k : BitVec 8) (onReg : Reg → Instr) (onVal : Byte → Instr) (s : State)
    (P : Byte → State → Prop) : Prop :=
  (∀ r, Completes (wordReg k r) (onReg r) s (P (readReg r s))) ∧
  (∀ v, Completes (wordVal k v) (onVal v) s (P v))

/-- A tgt kind completes on every register but F, and is refused on F (R57). -/
def CompletesOnTargets (k : BitVec 8) (onReg : Reg → Instr) (s : State) (P : Reg → State → Prop) : Prop :=
  (∀ r, r ≠ .f → Completes (wordReg k r) (onReg r) s (P r)) ∧
  RefusedUnchanged (wordReg k .f) (onReg .f) s

/-! ## The identities of R76 -/

/-- R76 (1): the sum and its two carries make up the exact sum, for the byte and for its low nibble. -/
def SumIdentity (s t : State) (x : Byte) (cin : Nat) : Prop :=
  regNat .a t + 256 * (readFlag .carry t).toNat = regNat .a s + x.toNat + cin ∧
  regNat .a t % 16 + 16 * (readFlag .halfCarry t).toNat = regNat .a s % 16 + x.toNat % 16 + cin

/-- R76 (2): a difference `res` and its two borrows make up the exact difference, for the byte and for its low nibble. -/
def DifferenceIdentity (s t : State) (x : Byte) (cin : Nat) (res : Int) : Prop :=
  res - 256 * (readFlag .carry t).toNat = (regNat .a s : Int) - x.toNat - cin ∧
  res % 16 - 16 * (readFlag .halfCarry t).toNat = (regNat .a s : Int) % 16 - (x.toNat : Int) % 16 - cin

/-- R76 (3): the 16-bit sum and its two carries make up the exact sum, for the pair and for its low twelve bits. -/
def PairSumIdentity (s t : State) (hi lo : Reg) : Prop :=
  pairNat .h .l t + 65536 * (readFlag .carry t).toNat = pairNat .h .l s + pairNat hi lo s ∧
  pairNat .h .l t % 4096 + 4096 * (readFlag .halfCarry t).toNat =
    pairNat .h .l s % 4096 + pairNat hi lo s % 4096

/-! ## Several commands in a row -/

/-- The commands one after the other, each from the state the one before it left (R42). -/
def execAll : List Instr → State → Result
  | [], s => .next s
  | i :: rest, s =>
    match exec i s with
    | .next t => execAll rest t
    | .fault r => .fault r
    | .refused r => .refused r

end Sys2Proof.Machine

namespace Sys2Proof

/-! ## The reads/writes table of 10_state.md R28 -/

/-- What a kind does to a flag: `*`, `0`, `1`, `-`. -/
inductive FlagEffect where
  | computed | cleared | set | unaffected
  deriving DecidableEq, Repr

/-- The column "writes" of R28, F left to the flag columns. -/
def Instr.writes : Instr → List Reg
  | .addReg _ | .addVal _ | .addWithCarryReg _ | .addWithCarryVal _ => [.a]
  | .addHL _ _ => [.h, .l]
  | .subReg _ | .subVal _ | .subWithCarryReg _ | .subWithCarryVal _ => [.a]
  | .andReg _ | .andVal _ | .orReg _ | .orVal _ | .xorReg _ | .xorVal _ => [.a]
  | .compareReg _ | .compareVal _ => []
  | .increment r | .decrement r => [r]
  | .complementCarry | .setCarry => []
  | .complement => [.a]
  | .rotateRight r | .rotateLeft r => [r]
  | .rotateRightA | .rotateLeftA => [.a]
  | .rotateRightCarry r | .rotateLeftCarry r => [r]
  | .rotateRightCarryA | .rotateLeftCarryA => [.a]
  | .shiftLeftArithmetic r | .shiftRightArithmetic r | .shiftRightLogical r | .swap r => [r]
  | .bitTestReg _ _ | .bitTestVal _ _ => []
  | .bitSet _ r | .bitReset _ r => [r]

/-- The registers of the column "reads" of R28; `src` reads a register in register mode only. -/
def Instr.reads : Instr → List Reg
  | .addReg r | .addWithCarryReg r | .subReg r | .subWithCarryReg r | .andReg r | .orReg r | .xorReg r
  | .compareReg r => [.a, r]
  | .addVal _ | .addWithCarryVal _ | .subVal _ | .subWithCarryVal _ | .andVal _ | .orVal _ | .xorVal _
  | .compareVal _ => [.a]
  | .addHL hi lo => [.h, .l, hi, lo]
  | .increment r | .decrement r => [r]
  | .complementCarry | .setCarry => []
  | .complement => [.a]
  | .rotateRight r | .rotateLeft r | .rotateRightCarry r | .rotateLeftCarry r => [r]
  | .rotateRightA | .rotateLeftA | .rotateRightCarryA | .rotateLeftCarryA => [.a]
  | .shiftLeftArithmetic r | .shiftRightArithmetic r | .shiftRightLogical r | .swap r => [r]
  | .bitTestReg _ r => [r]
  | .bitTestVal _ _ => []
  | .bitSet _ r | .bitReset _ r => [r]

/-- The kinds for which the column "reads" of R28 has `F.C`. -/
def Instr.readsCarry : Instr → Bool
  | .addWithCarryReg _ | .addWithCarryVal _ | .subWithCarryReg _ | .subWithCarryVal _ | .complementCarry
  | .rotateRight _ | .rotateLeft _ | .rotateRightA | .rotateLeftA => true
  | .addReg _ | .addVal _ | .addHL _ _ | .subReg _ | .subVal _ | .andReg _ | .andVal _ | .orReg _ | .orVal _
  | .xorReg _ | .xorVal _ | .compareReg _ | .compareVal _ | .increment _ | .decrement _ | .setCarry
  | .complement | .rotateRightCarry _ | .rotateLeftCarry _ | .rotateRightCarryA | .rotateLeftCarryA
  | .shiftLeftArithmetic _ | .shiftRightArithmetic _ | .shiftRightLogical _ | .swap _
  | .bitTestReg _ _ | .bitTestVal _ _ | .bitSet _ _ | .bitReset _ _ => false

/-- The flag columns of R28 for one kind, in the table's order Z, N, H, C. -/
def flagRow (z n h c : FlagEffect) : Flag → FlagEffect
  | .zero => z
  | .subtract => n
  | .halfCarry => h
  | .carry => c

/-- The flag columns of R28. -/
def Instr.flagEffect : Instr → Flag → FlagEffect
  | .addReg _ | .addVal _ | .addWithCarryReg _ | .addWithCarryVal _ | .addHL _ _ =>
    flagRow .computed .cleared .computed .computed
  | .subReg _ | .subVal _ | .subWithCarryReg _ | .subWithCarryVal _ | .compareReg _ | .compareVal _ =>
    flagRow .computed .set .computed .computed
  | .andReg _ | .andVal _ => flagRow .computed .cleared .set .cleared
  | .orReg _ | .orVal _ | .xorReg _ | .xorVal _ => flagRow .computed .cleared .cleared .cleared
  | .increment _ => flagRow .computed .cleared .computed .unaffected
  | .decrement _ => flagRow .computed .set .computed .unaffected
  | .complementCarry => flagRow .unaffected .cleared .cleared .computed
  | .setCarry => flagRow .unaffected .cleared .cleared .set
  | .complement => flagRow .unaffected .set .set .unaffected
  | .rotateRight _ | .rotateLeft _ | .rotateRightCarry _ | .rotateLeftCarry _ =>
    flagRow .computed .cleared .cleared .computed
  | .rotateRightA | .rotateLeftA | .rotateRightCarryA | .rotateLeftCarryA =>
    flagRow .cleared .cleared .cleared .computed
  | .shiftLeftArithmetic _ | .shiftRightArithmetic _ | .shiftRightLogical _ =>
    flagRow .computed .cleared .cleared .computed
  | .swap _ => flagRow .computed .cleared .cleared .cleared
  | .bitTestReg _ _ | .bitTestVal _ _ => flagRow .computed .cleared .set .unaffected
  | .bitSet _ _ | .bitReset _ _ => flagRow .unaffected .unaffected .unaffected .unaffected

/-- A flag after a command is as its column of R28 says. -/
def FlagEffect.holds (e : FlagEffect) (before after : Bool) : Prop :=
  match e with
  | .computed => True
  | .cleared => after = false
  | .set => after = true
  | .unaffected => after = before

end Sys2Proof

namespace Sys2Proof.Machine

/-! ## The causes of InvalidOperand (60_exceptions.md R97) -/

/-- The word matches no row of the opcode table (causes 3 and 4). -/
def matchesNoRow (w : Word) : Prop :=
  opcodeTable.filter (fun row => row.accepts w) = []

/-- The causes of R97, numbered as its table numbers them. -/
inductive InvalidCause : Transaction → Prop where
  /-- Cause 1: the bit index of a bit kind is above 7. -/
  | bitIndex (w : Word) (i : Instr) (b : BitVec 8) (hd : decode w = .ok i) (hi : i.bitIndex = some b)
      (hb : b.toNat > 7) : InvalidCause (.execute w)
  /-- Cause 2: the target of a read-modify-write kind is F. -/
  | targetF (w : Word) (i : Instr) (hd : decode w = .ok i) (hi : i.target = some .f) : InvalidCause (.execute w)
  /-- Causes 3 and 4: the word matches no row. -/
  | noRow (w : Word) (h : matchesNoRow w) : InvalidCause (.execute w)
  /-- Cause 5: both halves of a pair to be written name one register. -/
  | pairHalves (r : Reg) (v : Pair) : InvalidCause (.setRegisterPair r r v)

end Sys2Proof.Machine
end

