-- ==== Sys2Proof/Certificates/Slice0/Obligations.lean ====
section
/-! DEFINITION. The statements about the core, each from the spec's numbered rules. The rules' own encodings of the
words stand in the statements, so that each says what a caller who presents that word gets. -/

open Sys2Proof Sys2Proof.Machine

/-! ## Arithmetic, logical, compare, increment and decrement (spec/40_arithmetic_logical.md) -/

/-- R63: Add leaves `(A + x) mod 256` in A, in both operand forms and for every register as operand, with Zero from the
result, Subtract cleared, HalfCarry and Carry the carries out of bits 3 and 7; nothing but A and F changes. -/
def Obligations.AddPutsSumInA : Prop :=
  ∀ s : State, CompletesInBothModes 0x01 .addReg .addVal s fun x t =>
    regNat .a t = (regNat .a s + x.toNat) % 256 ∧
    FlagsAre t (decide ((regNat .a s + x.toNat) % 256 = 0)) false
      (decide (regNat .a s % 16 + x.toNat % 16 > 15)) (decide (regNat .a s + x.toNat > 255)) ∧
    OnlyWrites [.a, .f] s t

/-- R64: AddWithCarry adds the Carry flag before the command too, and both carries take it in. -/
def Obligations.AddWithCarryAddsPreviousCarry : Prop :=
  ∀ s : State, CompletesInBothModes 0x02 .addWithCarryReg .addWithCarryVal s fun x t =>
    regNat .a t = (regNat .a s + x.toNat + (readFlag .carry s).toNat) % 256 ∧
    FlagsAre t (decide ((regNat .a s + x.toNat + (readFlag .carry s).toNat) % 256 = 0)) false
      (decide (regNat .a s % 16 + x.toNat % 16 + (readFlag .carry s).toNat > 15))
      (decide (regNat .a s + x.toNat + (readFlag .carry s).toNat > 255)) ∧
    OnlyWrites [.a, .f] s t

/-- R65: AddHL leaves `(HL + pair) mod 65536` in HL for all 64 pairs, Zero from the 16-bit result, HalfCarry the carry
out of bit 11, Carry the carry out of bit 15. -/
def Obligations.AddHLAddsAnyPair : Prop :=
  ∀ (s : State) (hi lo : Reg), Completes (wordPair 0x03 hi lo) (.addHL hi lo) s fun t =>
    pairNat .h .l t = (pairNat .h .l s + pairNat hi lo s) % 65536 ∧
    FlagsAre t (decide ((pairNat .h .l s + pairNat hi lo s) % 65536 = 0)) false
      (decide (pairNat .h .l s % 4096 + pairNat hi lo s % 4096 > 4095))
      (decide (pairNat .h .l s + pairNat hi lo s > 65535)) ∧
    OnlyWrites [.h, .l, .f] s t

/-- R66, R67: Sub and SubWithCarry leave the exact difference mod 256 in A, Subtract set, HalfCarry and Carry the
borrows, compared as integers; SubWithCarry takes the Carry flag before the command off too. -/
def Obligations.SubtractionsPutDifferenceInA : Prop :=
  ∀ s : State,
    (CompletesInBothModes 0x04 .subReg .subVal s fun x t =>
      (regNat .a t : Int) = ((regNat .a s : Int) - x.toNat) % 256 ∧
      FlagsAre t (decide (((regNat .a s : Int) - x.toNat) % 256 = 0)) true
        (decide (regNat .a s % 16 < x.toNat % 16)) (decide (x.toNat > regNat .a s)) ∧
      OnlyWrites [.a, .f] s t) ∧
    (CompletesInBothModes 0x05 .subWithCarryReg .subWithCarryVal s fun x t =>
      (regNat .a t : Int) = ((regNat .a s : Int) - x.toNat - (readFlag .carry s).toNat) % 256 ∧
      FlagsAre t (decide (((regNat .a s : Int) - x.toNat - (readFlag .carry s).toNat) % 256 = 0)) true
        (decide (regNat .a s % 16 < x.toNat % 16 + (readFlag .carry s).toNat))
        (decide (x.toNat + (readFlag .carry s).toNat > regNat .a s)) ∧
      OnlyWrites [.a, .f] s t)

/-- R68 to R70: And, Or and Xor work bit by bit into A; Zero from the result, Subtract and Carry cleared, HalfCarry set
by And and cleared by the other two. -/
def Obligations.LogicalKindsWorkIntoA : Prop :=
  ∀ s : State,
    (CompletesInBothModes 0x06 .andReg .andVal s fun x t =>
      readReg .a t = readReg .a s &&& x ∧
      FlagsAre t (decide (readReg .a s &&& x = 0)) false true false ∧ OnlyWrites [.a, .f] s t) ∧
    (CompletesInBothModes 0x07 .orReg .orVal s fun x t =>
      readReg .a t = readReg .a s ||| x ∧
      FlagsAre t (decide (readReg .a s ||| x = 0)) false false false ∧ OnlyWrites [.a, .f] s t) ∧
    (CompletesInBothModes 0x08 .xorReg .xorVal s fun x t =>
      readReg .a t = readReg .a s ^^^ x ∧
      FlagsAre t (decide (readReg .a s ^^^ x = 0)) false false false ∧ OnlyWrites [.a, .f] s t)

/-- R71: Compare sets the flags exactly as Sub and writes F alone. -/
def Obligations.CompareSetsFlagsAsSub : Prop :=
  ∀ s : State, CompletesInBothModes 0x09 .compareReg .compareVal s fun x t =>
    FlagsAre t (decide (regNat .a s = x.toNat)) true
      (decide (regNat .a s % 16 < x.toNat % 16)) (decide (x.toNat > regNat .a s)) ∧
    OnlyWrites [.f] s t ∧
    ∃ u, exec (.subVal x) s = .next u ∧ readReg .f t = readReg .f u

/-- Increment and Decrement (R72, R73) change their register by one mod 256, with the nibble carry or borrow in
HalfCarry, and never change Carry. That F as target is refused, unchanged, is the spec's own decision D7 (R57: "Check
(b) is this spec's"), log 18. -/
def Obligations.IncrementDecrementKeepCarry : Prop :=
  ∀ s : State,
    (CompletesOnTargets 0x0A .increment s fun r t =>
      regNat r t = (regNat r s + 1) % 256 ∧
      FlagsAre t (decide ((regNat r s + 1) % 256 = 0)) false (decide (regNat r s % 16 + 1 > 15))
        (readFlag .carry s) ∧
      OnlyWrites [r, .f] s t) ∧
    (CompletesOnTargets 0x0B .decrement s fun r t =>
      (regNat r t : Int) = ((regNat r s : Int) - 1) % 256 ∧
      FlagsAre t (decide (((regNat r s : Int) - 1) % 256 = 0)) true (decide (regNat r s % 16 < 1))
        (readFlag .carry s) ∧
      OnlyWrites [r, .f] s t)

/-- R76 (1) to (3) [derived in the spec]: a sum or difference and its two carries or borrows make up the exact integer,
for the whole byte or pair and for its low nibble or low twelve bits, in every form of the six kinds. -/
def Obligations.CarriesMakeUpTheExactResult : Prop :=
  ∀ s : State,
    (CompletesInBothModes 0x01 .addReg .addVal s fun x t => SumIdentity s t x 0) ∧
    (CompletesInBothModes 0x02 .addWithCarryReg .addWithCarryVal s fun x t =>
      SumIdentity s t x (readFlag .carry s).toNat) ∧
    (CompletesInBothModes 0x04 .subReg .subVal s fun x t => DifferenceIdentity s t x 0 (regNat .a t)) ∧
    (CompletesInBothModes 0x05 .subWithCarryReg .subWithCarryVal s fun x t =>
      DifferenceIdentity s t x (readFlag .carry s).toNat (regNat .a t)) ∧
    (CompletesInBothModes 0x09 .compareReg .compareVal s fun x t =>
      DifferenceIdentity s t x 0 (((regNat .a s : Int) - x.toNat) % 256)) ∧
    (∀ hi lo, Completes (wordPair 0x03 hi lo) (.addHL hi lo) s fun t => PairSumIdentity s t hi lo)

/-! ## Flag-only instructions (spec/41_flag_only.md) -/

/-- R77: ComplementCarry inverts Carry, clears Subtract and HalfCarry, keeps Zero and every register but F. -/
def Obligations.ComplementCarryInvertsCarry : Prop :=
  ∀ s : State, Completes (wordNone 0x0C) .complementCarry s fun t =>
    FlagsAre t (readFlag .zero s) false false (!readFlag .carry s) ∧ OnlyWrites [.f] s t

/-- R78: SetCarry sets Carry, clears Subtract and HalfCarry, keeps Zero and every register but F. -/
def Obligations.SetCarryKeepsZero : Prop :=
  ∀ s : State, Completes (wordNone 0x0D) .setCarry s fun t =>
    FlagsAre t (readFlag .zero s) false false true ∧ OnlyWrites [.f] s t

/-- R79: Complement leaves `0xFF - A` in A, sets Subtract and HalfCarry, keeps Zero and Carry. -/
def Obligations.ComplementKeepsZeroAndCarry : Prop :=
  ∀ s : State, Completes (wordNone 0x0E) .complement s fun t =>
    regNat .a t = 255 - regNat .a s ∧
    FlagsAre t (readFlag .zero s) true true (readFlag .carry s) ∧ OnlyWrites [.a, .f] s t

/-! ## Rotates, shifts and Swap (spec/42_rotate_shift_swap.md) -/

/-- RotateRight and RotateLeft (R80, R81) move every bit by one place, the vacated bit filled with the Carry flag
before the command, the bit shifted out in Carry; Zero from the result. That F as target is refused, unchanged, is the
spec's own decision D7 (R57: "Check (b) is this spec's"), log 18. -/
def Obligations.RotatesThroughCarry : Prop :=
  ∀ s : State,
    (CompletesOnTargets 0x0F .rotateRight s fun r t =>
      regNat r t = regNat r s / 2 + 128 * (readFlag .carry s).toNat ∧
      FlagsAre t (decide (regNat r t = 0)) false false (decide (regNat r s % 2 = 1)) ∧
      OnlyWrites [r, .f] s t) ∧
    (CompletesOnTargets 0x10 .rotateLeft s fun r t =>
      regNat r t = regNat r s * 2 % 256 + (readFlag .carry s).toNat ∧
      FlagsAre t (decide (regNat r t = 0)) false false (decide (regNat r s ≥ 128)) ∧
      OnlyWrites [r, .f] s t)

/-- R82, R83: the accumulator-only forms do the same to A and clear Zero whatever the result. -/
def Obligations.AccumulatorRotatesThroughCarryClearZero : Prop :=
  ∀ s : State,
    (Completes (wordNone 0x11) .rotateRightA s fun t =>
      regNat .a t = regNat .a s / 2 + 128 * (readFlag .carry s).toNat ∧
      FlagsAre t false false false (decide (regNat .a s % 2 = 1)) ∧ OnlyWrites [.a, .f] s t) ∧
    (Completes (wordNone 0x12) .rotateLeftA s fun t =>
      regNat .a t = regNat .a s * 2 % 256 + (readFlag .carry s).toNat ∧
      FlagsAre t false false false (decide (regNat .a s ≥ 128)) ∧ OnlyWrites [.a, .f] s t)

/-- RotateRightCarry and RotateLeftCarry (R84, R85) rotate the eight bits alone, the wrapped bit copied to Carry. That
Zero is computed from the result is the spec's own decision D8 ("This spec applies the rule the source gives for the
rotates through Carry"), log 8. That F as target is refused, unchanged, is the spec's own decision D7 (R57: "Check (b)
is this spec's"), log 18. -/
def Obligations.EightBitRotatesCopyWrappedBit : Prop :=
  ∀ s : State,
    (CompletesOnTargets 0x13 .rotateRightCarry s fun r t =>
      regNat r t = regNat r s / 2 + 128 * (regNat r s % 2) ∧
      FlagsAre t (decide (regNat r t = 0)) false false (decide (regNat r s % 2 = 1)) ∧
      OnlyWrites [r, .f] s t) ∧
    (CompletesOnTargets 0x14 .rotateLeftCarry s fun r t =>
      regNat r t = regNat r s * 2 % 256 + regNat r s / 128 ∧
      FlagsAre t (decide (regNat r t = 0)) false false (decide (regNat r s ≥ 128)) ∧
      OnlyWrites [r, .f] s t)

/-- RotateRightCarryA and RotateLeftCarryA do the same to A and clear Zero. The two kinds are the spec's own decision D9
("supplies the form for the 8-bit rotates by analogy, with Zero always cleared"), log 9. -/
def Obligations.AccumulatorEightBitRotatesClearZero : Prop :=
  ∀ s : State,
    (Completes (wordNone 0x15) .rotateRightCarryA s fun t =>
      regNat .a t = regNat .a s / 2 + 128 * (regNat .a s % 2) ∧
      FlagsAre t false false false (decide (regNat .a s % 2 = 1)) ∧ OnlyWrites [.a, .f] s t) ∧
    (Completes (wordNone 0x16) .rotateLeftCarryA s fun t =>
      regNat .a t = regNat .a s * 2 % 256 + regNat .a s / 128 ∧
      FlagsAre t false false false (decide (regNat .a s ≥ 128)) ∧ OnlyWrites [.a, .f] s t)

/-- The three shifts (R89 to R91), the bit shifted out in Carry, Zero from the result; ShiftRightArithmetic keeps bit
7, ShiftRightLogical clears it. That F as target is refused, unchanged, is the spec's own decision D7 (R57: "Check (b)
is this spec's"), log 18. -/
def Obligations.ShiftsMoveOnePlace : Prop :=
  ∀ s : State,
    (CompletesOnTargets 0x17 .shiftLeftArithmetic s fun r t =>
      regNat r t = regNat r s * 2 % 256 ∧
      FlagsAre t (decide (regNat r t = 0)) false false (decide (regNat r s ≥ 128)) ∧
      OnlyWrites [r, .f] s t) ∧
    (CompletesOnTargets 0x18 .shiftRightArithmetic s fun r t =>
      regNat r t = regNat r s / 2 + (if regNat r s ≥ 128 then 128 else 0) ∧
      FlagsAre t (decide (regNat r t = 0)) false false (decide (regNat r s % 2 = 1)) ∧
      OnlyWrites [r, .f] s t) ∧
    (CompletesOnTargets 0x19 .shiftRightLogical s fun r t =>
      regNat r t = regNat r s / 2 ∧
      FlagsAre t (decide (regNat r t = 0)) false false (decide (regNat r s % 2 = 1)) ∧
      OnlyWrites [r, .f] s t)

/-- Swap (R92) exchanges the nibbles of its register; Zero from the result, the other three flags cleared. That F as
target is refused, unchanged, is the spec's own decision D7 (R57: "Check (b) is this spec's"), log 18. -/
def Obligations.SwapExchangesNibbles : Prop :=
  ∀ s : State, CompletesOnTargets 0x1A .swap s fun r t =>
    regNat r t = regNat r s % 16 * 16 + regNat r s / 16 ∧
    FlagsAre t (decide (regNat r t = 0)) false false false ∧ OnlyWrites [r, .f] s t

/-- R88 (1) and (2) [derived in the spec]: RotateLeft then RotateRight, and the other way round, restore the register
and Carry, and so do nine of either; RotateLeftCarry then RotateRightCarry, and the other way round, and eight of
either, restore the register. -/
def Obligations.RotatesAreInvertible : Prop :=
  ∀ (s : State) (r : Reg), r ≠ .f →
    (∀ l ∈ [[Instr.rotateLeft r, .rotateRight r], [.rotateRight r, .rotateLeft r],
        List.replicate 9 (.rotateLeft r), List.replicate 9 (.rotateRight r)],
      ∃ t, execAll l s = .next t ∧ readReg r t = readReg r s ∧ readFlag .carry t = readFlag .carry s) ∧
    (∀ l ∈ [[Instr.rotateLeftCarry r, .rotateRightCarry r], [.rotateRightCarry r, .rotateLeftCarry r],
        List.replicate 8 (.rotateLeftCarry r), List.replicate 8 (.rotateRightCarry r)],
      ∃ t, execAll l s = .next t ∧ readReg r t = readReg r s)

/-- R88 (3) [derived in the spec]: an accumulator-only kind leaves what its register kind leaves with A as target, from
the same state, except that Zero is 0. -/
def Obligations.AccumulatorFormsDifferInZeroOnly : Prop :=
  ∀ s : State, ∀ p ∈ [(Instr.rotateRightA, Instr.rotateRight .a), (Instr.rotateLeftA, Instr.rotateLeft .a),
      (Instr.rotateRightCarryA, Instr.rotateRightCarry .a), (Instr.rotateLeftCarryA, Instr.rotateLeftCarry .a)],
    ∃ t u, exec p.1 s = .next t ∧ exec p.2 s = .next u ∧
      (∀ q, q ≠ .f → readReg q t = readReg q u) ∧
      FlagsAre t false (readFlag .subtract u) (readFlag .halfCarry u) (readFlag .carry u)

/-- Pairs of commands that undo each other (corner cases of R72, R79 and R92; R76 (5)): Swap twice and Complement twice
restore the register, Increment then Decrement restores the register and Carry and leaves Subtract set. -/
def Obligations.UndoingPairsRestoreRegister : Prop :=
  ∀ (s : State) (r : Reg), r ≠ .f →
    (∃ t, execAll [.swap r, .swap r] s = .next t ∧ ∀ q, q ≠ .f → readReg q t = readReg q s) ∧
    (∃ t, execAll [.complement, .complement] s = .next t ∧ ∀ q, q ≠ .f → readReg q t = readReg q s) ∧
    (∃ t, execAll [.increment r, .decrement r] s = .next t ∧ (∀ q, q ≠ .f → readReg q t = readReg q s) ∧
      readFlag .carry t = readFlag .carry s ∧ readFlag .subtract t = true)

/-! ## Bit instructions (spec/43_bit.md) -/

/-- R93: BitTest puts the complement of the tested bit in Zero, clears Subtract, sets HalfCarry, keeps Carry and every
register but F; a bit index above 7 is refused, in both operand forms. -/
def Obligations.BitTestWritesFlagsOnly : Prop :=
  ∀ (s : State) (b : BitVec 8) (r : Reg) (v : Byte),
    (b.toNat ≤ 7 →
      (Completes (wordBitReg 0x1B b r) (.bitTestReg b r) s fun t =>
        FlagsAre t (!(readReg r s).getLsbD b.toNat) false true (readFlag .carry s) ∧ OnlyWrites [.f] s t) ∧
      (Completes (wordBitVal 0x1B b v) (.bitTestVal b v) s fun t =>
        FlagsAre t (!v.getLsbD b.toNat) false true (readFlag .carry s) ∧ OnlyWrites [.f] s t)) ∧
    (b.toNat > 7 →
      RefusedUnchanged (wordBitReg 0x1B b r) (.bitTestReg b r) s ∧
      RefusedUnchanged (wordBitVal 0x1B b v) (.bitTestVal b v) s)

/-- BitSet and BitReset (R94, R95) set and clear one bit of their register and change nothing else, no flag either; a
bit index above 7 is refused (R57 (a)). That F as target is refused, unchanged, is the spec's own decision D7 (R57:
"Check (b) is this spec's"), log 18. -/
def Obligations.BitSetResetChangeOneBit : Prop :=
  ∀ (s : State) (b : BitVec 8) (r : Reg),
    (b.toNat ≤ 7 ∧ r ≠ .f →
      (Completes (wordBitReg 0x1C b r) (.bitSet b r) s fun t =>
        (∀ j < 8, (readReg r t).getLsbD j = if j = b.toNat then true else (readReg r s).getLsbD j) ∧
        OnlyWrites [r] s t) ∧
      (Completes (wordBitReg 0x1D b r) (.bitReset b r) s fun t =>
        (∀ j < 8, (readReg r t).getLsbD j = if j = b.toNat then false else (readReg r s).getLsbD j) ∧
        OnlyWrites [r] s t)) ∧
    (b.toNat > 7 ∨ r = .f →
      RefusedUnchanged (wordBitReg 0x1C b r) (.bitSet b r) s ∧
      RefusedUnchanged (wordBitReg 0x1D b r) (.bitReset b r) s)

/-! ## Rules over all instructions -/

/-- The columns "writes" and Z, N, H, C of the table of R28: a served command writes no register its row does not
list, and each flag is cleared, set or unaffected as its row says. -/
def Obligations.EveryKindWritesAsTheTableSays : Prop :=
  ∀ (s : State) (i : Instr), i.wellFormed = true →
    ∃ t, exec i s = .next t ∧
      (∀ q, q ≠ .f → q ∉ i.writes → readReg q t = readReg q s) ∧
      (∀ f, (i.flagEffect f).holds (readFlag f s) (readFlag f t)) ∧
      t.pending = s.pending ∧ t.response = some .done

/-- The column "reads" of the table of R28: from two states that agree on the registers a kind's row lists, and on
Carry where the row has F.C, the registers it writes get the same values and the flags it computes come out the same,
whatever the other registers and flags hold. -/
def Obligations.EveryKindReadsAsTheTableSays : Prop :=
  ∀ (s s' t t' : State) (i : Instr), i.wellFormed = true →
    (∀ q ∈ i.reads, readReg q s = readReg q s') →
    (i.readsCarry = true → readFlag .carry s = readFlag .carry s') →
    exec i s = .next t → exec i s' = .next t' →
    (∀ q ∈ i.writes, readReg q t = readReg q t') ∧
    (∀ f, i.flagEffect f = .computed → readFlag f t = readFlag f t')

/-- A command that fails one of the domain checks of R57 is answered InvalidOperand with nothing else changed; a command
that passes both is answered Done. Check (b) is the spec's own ("Check (b) is this spec's", its decision D7; log 18). -/
def Obligations.DomainChecksDecideTheResponse : Prop :=
  ∀ (s : State) (i : Instr),
    ((∃ b, i.bitIndex = some b ∧ b.toNat > 7) ∨ i.target = some .f →
      exec i s = .next { s with response := some .invalidOperand }) ∧
    ((∀ b, i.bitIndex = some b → b.toNat ≤ 7) ∧ i.target ≠ some .f →
      ∃ t, exec i s = .next t ∧ t.response = some .done)

/-! ## Command words (spec/30_encoding.md) -/

/-- Decode of encode is the instruction, for every instruction and every value of its operands. -/
def Obligations.DecodeOfEncodeIsTheInstruction : Prop :=
  ∀ i : Instr, decode (encode i) = .ok i

/-- R55: a word the decoder accepts matches exactly one row of the opcode table, the row of the instruction it gives,
is that instruction's encoding, and is executed by that instruction's handler; a word it rejects matches no row. -/
def Obligations.DecoderAgreesWithOpcodeTable : Prop :=
  ∀ w : Word,
    (∀ i, decode w = .ok i →
      encode i = w ∧ ∃ row, opcodeTable.filter (fun row => row.accepts w) = [row] ∧
        row.kind = i.kind ∧ row.format = i.format ∧ ∀ s, executeCommand w s = exec i s) ∧
    ((∃ e, decode w = .error e) → matchesNoRow w)

/-- What R56 says with R54's unused fields and R51's value mode, the spec's own decisions D11 and D4: a word that
matches no row is answered InvalidOperand and changes no register and no flag; such are the words with kind code 0x00
or 0x1E to 0xFF, the words with a bit outside their format's fields, and the words with bit 15 set on a kind that has
no value-mode row. -/
def Obligations.WordsOfNoRowAreRefused : Prop :=
  (∀ (s : State) (w : Word) (rest : List Transaction), s.pending = .execute w :: rest → matchesNoRow w →
    step s = .next { s with pending := rest, response := some .invalidOperand }) ∧
  (∀ w : Word, (w.toNat / 2 ^ 24 = 0 ∨ w.toNat / 2 ^ 24 ≥ 0x1E) → matchesNoRow w) ∧
  (∀ w : Word, ∀ row ∈ opcodeTable, w.extractLsb' 24 8 = row.kind.code → w.getLsbD 15 = row.bits.getLsbD 15 →
    w &&& row.mask ≠ row.bits → matchesNoRow w) ∧
  (∀ w : Word, w.getLsbD 15 = true →
    w.toNat / 2 ^ 24 ∉ [0x01, 0x02, 0x04, 0x05, 0x06, 0x07, 0x08, 0x09, 0x1B] → matchesNoRow w)

/-- The words R60 writes out, one or more of each family, decode to the commands it writes beside them (the spec's own
encoding, its decisions D1 to D4). -/
def Obligations.WrittenWordsDecode : Prop :=
  decode 0x01000100#32 = .ok (.addReg .b) ∧
  decode 0x0100803C#32 = .ok (.addVal 0x3C) ∧
  decode 0x03000A00#32 = .ok (.addHL .b .c) ∧
  decode 0x03002E00#32 = .ok (.addHL .h .l) ∧
  decode 0x0A000500#32 = .ok (.increment .h) ∧
  decode 0x0D000000#32 = .ok .setCarry ∧
  decode 0x12000000#32 = .ok .rotateLeftA ∧
  decode 0x1A000000#32 = .ok (.swap .a) ∧
  decode 0x1B030100#32 = .ok (.bitTestReg 3 .b) ∧
  decode 0x1B038008#32 = .ok (.bitTestVal 3 0x08) ∧
  decode 0x1C070500#32 = .ok (.bitSet 7 .h)

/-- The register codes, and that every 3-bit code names a register (the spec's own numbering, R12 and its decision
D3). -/
def Obligations.RegisterCodesAreAClosedEnumeration : Prop :=
  [Reg.a, .b, .c, .d, .e, .h, .l, .f].map Reg.code = [0, 1, 2, 3, 4, 5, 6, 7] ∧
  (∀ r : Reg, Reg.ofCode r.code = r) ∧ (∀ c : BitVec 3, (Reg.ofCode c).code = c)

/-! ## Steps and transactions -/

/-- When the next transaction is a command word that decodes to `i`, the step is `exec i` on the state with that
transaction taken from the caller's stream, and nothing else is added around it. -/
def Obligations.StepRunsTheDecodedInstruction : Prop :=
  ∀ (s : State) (w : Word) (rest : List Transaction) (i : Instr),
    s.pending = .execute w :: rest → decode w = .ok i → step s = exec i { s with pending := rest }

/-- Every command ends with Done, code 0, or InvalidOperand, code 1 (the spec's own codes, R59 and its decision D12;
log 16). -/
def Obligations.EveryCommandAnswersOneOfTwoCodes : Prop :=
  Response.code .done = some 0 ∧ Response.code .invalidOperand = some 1 ∧
  ∀ (s : State) (w : Word) (rest : List Transaction), s.pending = .execute w :: rest →
    ∃ t, step s = .next t ∧ (t.response = some .done ∨ t.response = some .invalidOperand)

/-- R42: transactions are served in the order presented, one a step, each from exactly the state the one before it left;
none sees anything of a later one: what it leaves in the registers and answers is the same whatever is presented
after it. -/
def Obligations.OneTransactionAStepInOrder : Prop :=
  ∀ (s : State) (tx : Transaction) (rest : List Transaction), s.pending = tx :: rest →
    ∃ t, serve tx { s with pending := rest } = .next t ∧ step s = .next t ∧ t.pending = rest ∧
      ∀ later : List Transaction, ∃ u, step { s with pending := tx :: later } = .next u ∧
        u.regs = t.regs ∧ u.response = t.response ∧ u.pending = later

/-- R119: whatever the caller has presented, and from whatever state, every transaction completes: the run serves
them all and ends with none left, and no step stops it. -/
def Obligations.EveryRunServesAllItsTransactions : Prop :=
  ∀ s : State, ∃ t, Host.Core.run core s.pending.length s = .next t ∧ t.pending = []

/-- Between transactions the core is idle and its state does not change. That the model takes an idle step at all is its
choice, log 5. -/
def Obligations.IdleStepKeepsState : Prop :=
  ∀ s : State, s.pending = [] → step s = .next s

/-- What a transaction leaves in the registers and answers depends on the registers before it and on the transaction
alone: not on what was answered before (R99, no latch), not on what will be presented later (R42), and on no hidden
state (R5, R18). -/
def Obligations.TransactionResultDependsOnRegistersAlone : Prop :=
  ∀ (s s' t t' : State) (tx : Transaction) (rest rest' : List Transaction),
    s.regs = s'.regs → s.pending = tx :: rest → s'.pending = tx :: rest' →
    step s = .next t → step s' = .next t' →
    t.regs = t'.regs ∧ t.response = t'.response

/-- R96: a transaction that ends in InvalidOperand changes no register and no flag: the register file after it is bit
for bit the one before it. -/
def Obligations.InvalidOperandChangesNoRegister : Prop :=
  ∀ s t : State, step s = .next t → t.response = some .invalidOperand → t.regs = s.regs

/-- InvalidOperand is answered in exactly the cases the table of R97 lists and no other ("the other four are this spec's
decisions"). -/
def Obligations.InvalidOperandHasExactlyTheListedCauses : Prop :=
  ∀ (s t : State) (tx : Transaction) (rest : List Transaction), s.pending = tx :: rest → step s = .next t →
    (t.response = some .invalidOperand ↔ InvalidCause tx)

/-- InvalidOperand is not latched (R99, the spec's own decision D13): the next transaction is executed from the
unchanged registers exactly as if the refused one had never been presented, whatever it is. -/
def Obligations.RefusedTransactionLeavesNoTrace : Prop :=
  ∀ (s t : State) (tx : Transaction) (rest : List Transaction), s.pending = tx :: rest → rest ≠ [] →
    step s = .next t → t.response = some .invalidOperand →
    step t = step { s with pending := rest }

/-! ## The access port (spec/10_state.md section 4) -/

/-- R20: getRegister returns the register and changes nothing; F comes with a zero low nibble. -/
def Obligations.GetRegisterReturnsTheRegister : Prop :=
  ∀ (s : State) (r : Reg) (rest : List Transaction), s.pending = .getRegister r :: rest →
    step s = .next { s with pending := rest, response := some (.byte (readReg r s)) } ∧
    (r = .f → regNat r s % 16 = 0)

/-- setRegister (R21) writes one register and nothing else, computes no flag, and never signals InvalidOperand; F
takes `v & 0xF0`. That it answers Done is the model's inference, log 3, from the spec's own decision D12 (R59). -/
def Obligations.SetRegisterWritesOneRegister : Prop :=
  ∀ (s : State) (r : Reg) (v : Byte) (rest : List Transaction), s.pending = .setRegister r v :: rest →
    ∃ t, step s = .next t ∧ readReg r t = (if r = .f then v &&& 0xF0#8 else v) ∧
      OnlyWrites [r] { s with pending := rest } t

/-- R22: getRegisterPair returns the first-named register as the high byte for all 64 pairs, `R[hi] * 257` when both
halves name one register, and changes nothing. -/
def Obligations.GetRegisterPairIsHighThenLow : Prop :=
  ∀ (s : State) (hi lo : Reg) (rest : List Transaction), s.pending = .getRegisterPair hi lo :: rest →
    ∃ v : Pair, step s = .next { s with pending := rest, response := some (.pair v) } ∧
      v.toNat = pairNat hi lo s ∧ (hi = lo → v.toNat = regNat hi s * 257)

/-- setRegisterPair (R23) with two different registers writes both halves and nothing else, `& 0xF0` in a half that is
F; with one register twice it signals InvalidOperand and changes no register, the spec's own decision D6, log 18. That
the write answers Done is the model's inference, log 3, from the spec's own decision D12 (R59). -/
def Obligations.SetRegisterPairWritesTwoRegisters : Prop :=
  ∀ (s : State) (hi lo : Reg) (v : Pair) (rest : List Transaction),
    s.pending = .setRegisterPair hi lo v :: rest →
    (hi ≠ lo → ∃ t, step s = .next t ∧
      regNat hi t = (if hi = .f then v.toNat / 256 / 16 * 16 else v.toNat / 256) ∧
      regNat lo t = (if lo = .f then v.toNat % 256 / 16 * 16 else v.toNat % 256) ∧
      OnlyWrites [hi, lo] { s with pending := rest } t) ∧
    (hi = lo → step s = .next { s with pending := rest, response := some .invalidOperand })

/-- The round trip as R24 corrects it ("As corrected by rules R15 and R23"): getRegisterPair after setRegisterPair on
two different registers returns `v & M`, M as the rule gives it; and setting a pair to the value it was read with
changes no register. -/
def Obligations.PairRoundTrip : Prop :=
  ∀ (s : State) (hi lo : Reg) (v : Pair) (rest : List Transaction), hi ≠ lo →
    (s.pending = .setRegisterPair hi lo v :: .getRegisterPair hi lo :: rest →
      ∃ t, Host.Core.run core 2 s = .next t ∧
        t.response = some (.pair (v &&& if lo = .f then 0xFFF0#16 else if hi = .f then 0xF0FF#16 else 0xFFFF#16))) ∧
    (s.pending = .getRegisterPair hi lo :: .setRegisterPair hi lo v :: rest → v.toNat = pairNat hi lo s →
      ∃ t, Host.Core.run core 2 s = .next t ∧ ∀ q, readReg q t = readReg q s)

/-- getFlag returns bit 4 + f of F and changes nothing; setFlag writes that bit by R27's formula, keeps the other
three flags and every other register, and never signals InvalidOperand (R25, R26); the four selectors are Carry 0,
HalfCarry 1, Subtract 2, Zero 3 (the spec's own coding, R27 and its decision D19). That setFlag answers Done is the
model's inference, log 3, from the spec's own decision D12 (R59). -/
def Obligations.FlagAccessorsReachOneFlag : Prop :=
  [Flag.carry, .halfCarry, .subtract, .zero].map Flag.selector = [0, 1, 2, 3] ∧
  (∀ c : BitVec 2, (Flag.ofSelector c).selector = c) ∧
  ∀ (s : State) (f : Flag) (rest : List Transaction),
    (s.pending = .getFlag f :: rest →
      step s = .next { s with
        pending := rest, response := some (.flag ((readReg .f s).getLsbD (4 + f.selector.toNat))) }) ∧
    ∀ value : Bool, s.pending = .setFlag value f :: rest →
      ∃ t, step s = .next t ∧
        readReg .f t = ((readReg .f s &&& ~~~(1#8 <<< (4 + f.selector.toNat))) |||
          ((BitVec.ofBool value).setWidth 8 <<< (4 + f.selector.toNat))) ∧
        readFlag f t = value ∧ (∀ g, g ≠ f → readFlag g t = readFlag g s) ∧
        OnlyWrites [.f] { s with pending := rest } t

/-! ## The flags register -/

/-- R14: F reads as the four flags at bits 7 to 4, Zero, Subtract, HalfCarry, Carry, with bits 3 to 0 zero. -/
def Obligations.FlagsRegisterPacksFourFlags : Prop :=
  ∀ s : State, regNat .f s = 128 * (readFlag .zero s).toNat + 64 * (readFlag .subtract s).toNat +
    32 * (readFlag .halfCarry s).toNat + 16 * (readFlag .carry s).toNat

/-- A write to F stores `v & 0xF0`, a read of F has a zero low nibble (R15, the spec's own decision D5: "the invariant
wins"; log 7), and every other register keeps all eight bits of what is written and aliases no other (R10). -/
def Obligations.FlagsRegisterLowNibbleIsHardwired : Prop :=
  ∀ (s : State) (r q : Reg) (v : Byte),
    readReg .f s &&& 0x0F#8 = 0 ∧
    readReg r (writeReg r v s) = (if r = .f then v &&& 0xF0#8 else v) ∧
    (q ≠ r → readReg q (writeReg r v s) = readReg q s)

/-- No step of any kind, a command, an access-port write or a reset, leaves bits 3 to 0 of the stored F other than
zero. R16 says so of instructions; that access-port writes and reset keep them zero too is the spec's own decision D5
(R15), and that F is stored as a byte is the model's choice, log 7. -/
def Obligations.StepKeepsLowNibbleClear : Prop :=
  ∀ s t : State, s.LowNibbleClear → step s = .next t → t.LowNibbleClear

/-- The reset state meets the invariant of `StepKeepsLowNibbleClear`, whatever BOOT is. -/
def Obligations.ResetHasLowNibbleClear : Prop :=
  State.reset.LowNibbleClear ∧ ∀ boot : Reg → Byte, (RegFile.ofBoot boot).f &&& 0x0F#8 = 0

/-! ## Reset (spec/70_reset_and_hazards.md) -/

/-- R29: after reset every register holds its boot value, F its boot value `& 0xF0`. -/
def Obligations.ResetLoadsBootValues : Prop :=
  ∀ r : Reg, readReg r State.reset = (if r = .f then Config.boot r &&& 0xF0#8 else Config.boot r)

/-- Reset, applied at any time between transactions, returns the core to exactly the state of R109, with no memory of
anything before it (R111, the spec's own decision D17). That the caller's stream stays, and that the model's answer
field is cleared, are the model's choices, log 2 and log 3. -/
def Obligations.ResetTransactionForgetsEverything : Prop :=
  ∀ (s : State) (rest : List Transaction), s.pending = .reset :: rest →
    step s = .next { State.reset with pending := rest }

/-- Eight setRegister operations with the values read from a state restore its register file exactly (R120), in any
order (R113, the spec's own decision D17), whatever the state they are applied to. -/
def Obligations.SnapshotIsRestoredInAnyOrder : Prop :=
  ∀ (s u : State) (order : List Reg), u.LowNibbleClear → (∀ r, r ∈ order) →
    s.pending = order.map (fun r => .setRegister r (readReg r u)) →
    ∃ t, Host.Core.run core order.length s = .next t ∧ t.regs = u.regs
end

