-- ==== Sys2Proof/Laws/State.lean ====
section
/-! SUPPORT. One lemma per field per update of the state, each true by rfl: no later proof unfolds a record update. -/

namespace Sys2Proof.Machine

variable (s : State) (r q : Reg) (v : Byte) (p : Pair) (fl : Flags) (f : Flag) (b : Bool) (a : Response)

/-! ## writeReg -/

@[simp] theorem writeReg_regs : (writeReg r v s).regs = s.regs.set r v := rfl
@[simp] theorem writeReg_pending : (writeReg r v s).pending = s.pending := rfl
@[simp] theorem writeReg_response : (writeReg r v s).response = s.response := rfl

/-! ## writePair, writeFlag, writeFlags -/

@[simp] theorem writePair_pending (hi lo : Reg) : (writePair hi lo p s).pending = s.pending := rfl
@[simp] theorem writePair_response (hi lo : Reg) : (writePair hi lo p s).response = s.response := rfl
@[simp] theorem writeFlag_pending : (writeFlag f b s).pending = s.pending := rfl
@[simp] theorem writeFlag_response : (writeFlag f b s).response = s.response := rfl
@[simp] theorem writeFlags_pending : (writeFlags fl s).pending = s.pending := rfl
@[simp] theorem writeFlags_response : (writeFlags fl s).response = s.response := rfl

/-! ## commit -/

@[simp] theorem commit_pending (o : Computed) : (commit r o s).pending = s.pending := rfl
@[simp] theorem commit_response (o : Computed) : (commit r o s).response = s.response := rfl

/-! ## answer -/

@[simp] theorem answer_regs : (answer a s).regs = s.regs := rfl
@[simp] theorem answer_pending : (answer a s).pending = s.pending := rfl
@[simp] theorem answer_response : (answer a s).response = some a := rfl
@[simp] theorem readReg_answer : readReg r (answer a s) = readReg r s := rfl
@[simp] theorem readFlag_answer : readFlag f (answer a s) = readFlag f s := rfl

/-! ## The fields of State taken or set directly -/

@[simp] theorem readReg_pending (l : List Transaction) : readReg r { s with pending := l } = readReg r s := rfl
@[simp] theorem readReg_response (o : Option Response) : readReg r { s with response := o } = readReg r s := rfl
@[simp] theorem readFlag_pending (l : List Transaction) : readFlag f { s with pending := l } = readFlag f s := rfl
@[simp] theorem readFlag_response (o : Option Response) : readFlag f { s with response := o } = readFlag f s := rfl

/-! ## reset -/

@[simp] theorem reset_regs : State.reset.regs = RegFile.ofBoot Config.boot := rfl
@[simp] theorem reset_pending : State.reset.pending = [] := rfl
@[simp] theorem reset_response : State.reset.response = none := rfl
@[simp] theorem resetCore_regs : (resetCore s).regs = RegFile.ofBoot Config.boot := rfl
@[simp] theorem resetCore_pending : (resetCore s).pending = s.pending := rfl
@[simp] theorem resetCore_response : (resetCore s).response = none := rfl

/-! ## withFetchWord -/

@[simp] theorem withFetchWord_regs (n w : Nat) : (s.withFetchWord n w).regs = s.regs := rfl
@[simp] theorem withFetchWord_pending (n w : Nat) :
    (s.withFetchWord n w).pending = .execute (tableWord n w) :: s.pending := rfl
@[simp] theorem withFetchWord_response (n w : Nat) : (s.withFetchWord n w).response = s.response := rfl

end Sys2Proof.Machine
end

