-- ==== Sys2Proof/Laws/Ops.lean ====
section
/-! SUPPORT. What each shared operation does, said once: reads after writes, the flags after a write of F, and one
lemma for each shape in which a command writes its results (30_encoding.md R58). -/

namespace Sys2Proof.Machine

/-! ## Registers -/

theorem readReg_writeReg_self {r : Reg} (h : r ≠ .f) (v : Byte) (s : State) : readReg r (writeReg r v s) = v := by
  cases r <;> first | rfl | exact absurd rfl h

@[simp] theorem readReg_f_writeReg_f (v : Byte) (s : State) : readReg .f (writeReg .f v s) = v &&& 0xF0#8 := by
  simp only [readReg, writeReg, RegFile.get, RegFile.set, BitVec.and_assoc, BitVec.and_self]

theorem readReg_writeReg_of_ne {q r : Reg} (h : q ≠ r) (v : Byte) (s : State) :
    readReg q (writeReg r v s) = readReg q s := by
  cases q <;> cases r <;> first | rfl | exact absurd rfl h

theorem readFlag_writeReg_of_ne {r : Reg} (h : r ≠ .f) (f : Flag) (v : Byte) (s : State) :
    readFlag f (writeReg r v s) = readFlag f s := by
  simp only [readFlag, readReg_writeReg_of_ne (Ne.symm h)]

theorem readFlags_writeReg_of_ne {r : Reg} (h : r ≠ .f) (v : Byte) (s : State) :
    readFlags (writeReg r v s) = readFlags s := by
  simp only [readFlags, readReg_writeReg_of_ne (Ne.symm h)]

/-! ## The flags byte -/

@[simp] theorem toByte_and_F0 (fl : Flags) : fl.toByte &&& 0xF0#8 = fl.toByte := by
  obtain ⟨z, n, h, c⟩ := fl
  cases z <;> cases n <;> cases h <;> cases c <;> rfl

@[simp] theorem ofByte_toByte (fl : Flags) : Flags.ofByte fl.toByte = fl := by
  obtain ⟨z, n, h, c⟩ := fl
  cases z <;> cases n <;> cases h <;> cases c <;> rfl

@[simp] theorem readFlags_zero (s : State) : (readFlags s).zero = readFlag .zero s := rfl
@[simp] theorem readFlags_subtract (s : State) : (readFlags s).subtract = readFlag .subtract s := rfl
@[simp] theorem readFlags_halfCarry (s : State) : (readFlags s).halfCarry = readFlag .halfCarry s := rfl
@[simp] theorem readFlags_carry (s : State) : (readFlags s).carry = readFlag .carry s := rfl

@[simp] theorem readReg_f_writeFlags (fl : Flags) (s : State) : readReg .f (writeFlags fl s) = fl.toByte := by
  simp only [writeFlags, readReg_f_writeReg_f, toByte_and_F0]

theorem readReg_writeFlags_of_ne {q : Reg} (h : q ≠ .f) (fl : Flags) (s : State) :
    readReg q (writeFlags fl s) = readReg q s :=
  readReg_writeReg_of_ne h _ _

@[simp] theorem readFlags_writeFlags (fl : Flags) (s : State) : readFlags (writeFlags fl s) = fl := by
  simp only [readFlags, readReg_f_writeFlags, ofByte_toByte]

/-- After a write of all four flags each reads as written. -/
theorem flagsAre_writeFlags (fl : Flags) (s : State) :
    FlagsAre (writeFlags fl s) fl.zero fl.subtract fl.halfCarry fl.carry where
  zero := congrArg Flags.zero (readFlags_writeFlags fl s)
  subtract := congrArg Flags.subtract (readFlags_writeFlags fl s)
  halfCarry := congrArg Flags.halfCarry (readFlags_writeFlags fl s)
  carry := congrArg Flags.carry (readFlags_writeFlags fl s)

theorem FlagsAre.answer {t : State} {z n h c : Bool} (hf : FlagsAre t z n h c) (a : Response) :
    FlagsAre (answer a t) z n h c :=
  ⟨hf.zero, hf.subtract, hf.halfCarry, hf.carry⟩

theorem flag_cases {P : Flag → Prop} (hz : P .zero) (hn : P .subtract) (hh : P .halfCarry) (hc : P .carry) :
    ∀ f, P f
  | .zero => hz
  | .subtract => hn
  | .halfCarry => hh
  | .carry => hc

/-! ## What a served command leaves -/

/-- A state answered Done that differs from `s` in the registers of `dst` only. -/
theorem onlyWrites_done {dst : List Reg} {s t : State} (h : ∀ q, q ∉ dst → readReg q t = readReg q s)
    (hp : t.pending = s.pending) : OnlyWrites dst s (answer .done t) :=
  ⟨h, hp, rfl⟩

/-- Step 5 of R58 for one register and the flags: the register holds the result, the flags are as computed, nothing
else changes. -/
theorem commit_done {dst : Reg} (h : dst ≠ .f) (o : Computed) (s : State) :
    readReg dst (answer .done (commit dst o s)) = o.res ∧
    FlagsAre (answer .done (commit dst o s)) o.flags.zero o.flags.subtract o.flags.halfCarry o.flags.carry ∧
    OnlyWrites [dst, .f] s (answer .done (commit dst o s)) := by
  refine ⟨?_, (flagsAre_writeFlags _ _).answer _, onlyWrites_done (fun q hq => ?_) rfl⟩
  · rw [readReg_answer, commit, readReg_writeFlags_of_ne h, readReg_writeReg_self h]
  · simp only [List.mem_cons, List.not_mem_nil, or_false, not_or] at hq
    rw [commit, readReg_writeFlags_of_ne hq.2, readReg_writeReg_of_ne hq.1]

/-- A command on the accumulator, whole: what it leaves in A, in the flags, and that nothing else changes. -/
theorem onAccumulator_next (op : Byte → Flags → Computed) (s : State) :
    ∃ t, onAccumulator op s = .next t ∧ readReg .a t = (op (readReg .a s) (readFlags s)).res ∧
      FlagsAre t (op (readReg .a s) (readFlags s)).flags.zero (op (readReg .a s) (readFlags s)).flags.subtract
        (op (readReg .a s) (readFlags s)).flags.halfCarry (op (readReg .a s) (readFlags s)).flags.carry ∧
      OnlyWrites [.a, .f] s t :=
  ⟨_, rfl, commit_done (by decide) _ s⟩

/-- A command of format T on a register other than F, whole. -/
theorem onTarget_next {r : Reg} (h : r ≠ .f) (op : Byte → Flags → Computed) (s : State) :
    ∃ t, onTarget r op s = .next t ∧ readReg r t = (op (readReg r s) (readFlags s)).res ∧
      FlagsAre t (op (readReg r s) (readFlags s)).flags.zero (op (readReg r s) (readFlags s)).flags.subtract
        (op (readReg r s) (readFlags s)).flags.halfCarry (op (readReg r s) (readFlags s)).flags.carry ∧
      OnlyWrites [r, .f] s t :=
  ⟨answer .done (commit r (op (readReg r s) (readFlags s)) s),
    by simp [onTarget, targetBad, h, answerDone], commit_done h _ s⟩

/-- A command of format T on F is refused (R57). -/
theorem onTarget_f (op : Byte → Flags → Computed) (s : State) :
    onTarget .f op s = .next { s with response := some .invalidOperand } := rfl

/-- A command of format BT with its operands in their domains, whole: no flag is written (R94). -/
theorem onTargetBit_next {b : BitVec 8} {r : Reg} (hb : b.toNat ≤ 7) (h : r ≠ .f) (op : Byte → Byte) (s : State) :
    ∃ t, onTargetBit b r op s = .next t ∧ readReg r t = op (readReg r s) ∧ OnlyWrites [r] s t := by
  refine ⟨answer .done (writeReg r (op (readReg r s)) s), ?_, readReg_writeReg_self h _ _,
    onlyWrites_done (fun q hq => readReg_writeReg_of_ne (by simpa using hq) _ _) rfl⟩
  have hb' : ¬ b.toNat > 7 := by omega
  simp [onTargetBit, bitIndexBad, targetBad, h, hb', answerDone]

/-- A command of format BT with an operand out of its domain is refused (R57). -/
theorem onTargetBit_refused {b : BitVec 8} {r : Reg} (h : b.toNat > 7 ∨ r = .f) (op : Byte → Byte) (s : State) :
    onTargetBit b r op s = .next { s with response := some .invalidOperand } := by
  have : (bitIndexBad b || targetBad r) = true := by simpa [bitIndexBad, targetBad] using h
  simp only [onTargetBit, this, if_true]; rfl

/-- BitTest with its index in its domain, whole. -/
theorem testBit_next {b : BitVec 8} (hb : b.toNat ≤ 7) (x : Byte) (s : State) :
    ∃ t, testBit b x s = .next t ∧
      FlagsAre t (!x.getLsbD b.toNat) false true (readFlag .carry s) ∧ OnlyWrites [.f] s t := by
  have hb' : bitIndexBad b = false := by simpa [bitIndexBad] using hb
  refine ⟨_, by simp only [testBit, hb', Bool.false_eq_true, if_false]; rfl, (flagsAre_writeFlags _ _).answer _,
    onlyWrites_done (fun q hq => readReg_writeFlags_of_ne (by simpa using hq) _ _) rfl⟩

/-- BitTest with an index above 7 is refused (R57). -/
theorem testBit_refused {b : BitVec 8} (hb : b.toNat > 7) (x : Byte) (s : State) :
    testBit b x s = .next { s with response := some .invalidOperand } := by
  have hb' : bitIndexBad b = true := by simpa [bitIndexBad] using hb
  simp only [testBit, hb', if_true]; rfl

/-- Compare with either form of its operand, whole. -/
theorem compareWithA_next (x : Byte) (s : State) :
    ∃ t, compareWithA x s = .next t ∧
      FlagsAre t (differenceOf (readReg .a s) x false).flags.zero true
        (differenceOf (readReg .a s) x false).flags.halfCarry
        (differenceOf (readReg .a s) x false).flags.carry ∧ OnlyWrites [.f] s t :=
  ⟨_, rfl, (flagsAre_writeFlags _ _).answer _,
    onlyWrites_done (fun q hq => readReg_writeFlags_of_ne (by simpa using hq) _ _) rfl⟩

end Sys2Proof.Machine
end

