-- ==== Sys2Proof/Laws/Values.lean ====
section
/-! SUPPORT. The operations on values as arithmetic: nibbles as remainders, results as exact sums and differences
reduced, rotates and shifts as halving and doubling (00_scope.md section 5; 42_rotate_shift_swap.md). -/

namespace Sys2Proof.Machine

/-! ## Nibbles and Zero -/

@[simp] theorem lowNibble_eq_mod (v : Byte) : lowNibble v = v.toNat % 16 := by
  simp only [lowNibble, BitVec.toNat_and, BitVec.toNat_ofNat]
  exact Nat.and_two_pow_sub_one_eq_mod v.toNat 4

@[simp] theorem lowTwelve_eq_mod (v : Pair) : lowTwelve v = v.toNat % 4096 := by
  simp only [lowTwelve, BitVec.toNat_and, BitVec.toNat_ofNat]
  exact Nat.and_two_pow_sub_one_eq_mod v.toNat 12

theorem isZero_eq_decide (v : Byte) : isZero v = decide (v.toNat = 0) := by
  by_cases h : v.toNat = 0
  · have : v = 0 := BitVec.eq_of_toNat_eq h
    simp [isZero, this]
  · have : v ≠ 0 := fun e => h (by simp [e])
    simpa [isZero, h] using this

/-! ## Sums and differences -/

theorem sumOf_res_toNat (a x : Byte) (cin : Bool) :
    (sumOf a x cin).res.toNat = (a.toNat + x.toNat + cin.toNat) % 256 := by
  simp [sumOf]

theorem differenceOf_res_toNat (a x : Byte) (cin : Bool) :
    ((differenceOf a x cin).res.toNat : Int) = ((a.toNat : Int) - x.toNat - cin.toNat) % 256 := by
  simp only [differenceOf, BitVec.toNat_ofInt]
  omega

theorem incrementOf_res_toNat (t : Byte) (fl : Flags) : (incrementOf t fl).res.toNat = (t.toNat + 1) % 256 := by
  simp [incrementOf]

theorem decrementOf_res_toNat (t : Byte) (fl : Flags) :
    ((decrementOf t fl).res.toNat : Int) = ((t.toNat : Int) - 1) % 256 := by
  simp only [decrementOf, BitVec.toNat_ofInt]
  omega

theorem pairSum_toNat (p q : Pair) : (pairSum p q).toNat = (p.toNat + q.toNat) % 65536 := by
  simp [pairSum]

/-! ## Flags of sums and differences -/

theorem halfCarryOfAdd_eq (a x : Byte) (cin : Bool) :
    halfCarryOfAdd a x cin = decide (a.toNat % 16 + x.toNat % 16 + cin.toNat > 15) := by
  rw [halfCarryOfAdd, lowNibble_eq_mod, lowNibble_eq_mod]

theorem halfBorrow_eq (a x : Byte) (cin : Bool) :
    halfBorrow a x cin = decide (a.toNat % 16 < x.toNat % 16 + cin.toNat) := by
  rw [halfBorrow, lowNibble_eq_mod, lowNibble_eq_mod]

theorem halfCarryOfIncrement_eq (t : Byte) : halfCarryOfIncrement t = decide (t.toNat % 16 + 1 > 15) := by
  rw [halfCarryOfIncrement, lowNibble_eq_mod]

theorem halfBorrowOfDecrement_eq (t : Byte) : halfBorrowOfDecrement t = decide (t.toNat % 16 < 1) := by
  rw [halfBorrowOfDecrement, lowNibble_eq_mod]

theorem halfCarryOfAddPair_eq (p q : Pair) :
    halfCarryOfAddPair p q = decide (p.toNat % 4096 + q.toNat % 4096 > 4095) := by
  rw [halfCarryOfAddPair, lowTwelve_eq_mod, lowTwelve_eq_mod]

/-- Zero of a sum. -/
theorem isZero_sumOf (a x : Byte) (cin : Bool) :
    isZero (sumOf a x cin).res = decide ((a.toNat + x.toNat + cin.toNat) % 256 = 0) := by
  rw [isZero_eq_decide, sumOf_res_toNat]

/-- Zero of a difference. -/
theorem isZero_differenceOf (a x : Byte) (cin : Bool) :
    isZero (differenceOf a x cin).res = decide (((a.toNat : Int) - x.toNat - cin.toNat) % 256 = 0) := by
  rw [isZero_eq_decide, decide_eq_decide, ← differenceOf_res_toNat, Int.natCast_eq_zero]

/-- Zero of the 16-bit sum. -/
theorem isZero_pairSum (p q : Pair) : (pairSum p q == 0) = decide ((p.toNat + q.toNat) % 65536 = 0) := by
  rw [← pairSum_toNat, Bool.beq_eq_decide_eq, decide_eq_decide, BitVec.toNat_eq]
  rfl

/-! ## Pairs -/

theorem readPair_toNat (hi lo : Reg) (s : State) : (readPair hi lo s).toNat = pairNat hi lo s := by
  simp only [readPair, pairNat, regNat]
  exact (BitVec.toNat_append (readReg hi s) (readReg lo s)).trans (by
    rw [← Nat.shiftLeft_add_eq_or_of_lt (readReg lo s).isLt, Nat.shiftLeft_eq])

theorem highByte_toNat (p : Pair) : (highByte p).toNat = p.toNat / 256 := by
  have := p.isLt
  simp only [highByte, BitVec.extractLsb'_toNat, Nat.shiftRight_eq_div_pow]
  omega

theorem lowByte_toNat (p : Pair) : (lowByte p).toNat = p.toNat % 256 := by
  simp [lowByte, BitVec.extractLsb'_toNat]

/-! ## Rotates, shifts, Swap -/

theorem shiftRightIn_toNat (t : Byte) (top : Bool) :
    (shiftRightIn t top).toNat = t.toNat / 2 + 128 * top.toNat := by
  revert top t; decide

theorem shiftLeftIn_toNat (t : Byte) (low : Bool) :
    (shiftLeftIn t low).toNat = t.toNat * 2 % 256 + low.toNat := by
  revert low t; decide

theorem getLsbD_zero_eq_decide (t : Byte) : t.getLsbD 0 = decide (t.toNat % 2 = 1) := by
  revert t; decide

theorem getLsbD_seven_eq_decide (t : Byte) : t.getLsbD 7 = decide (t.toNat ≥ 128) := by
  revert t; decide

theorem shiftRightArithmeticOf_res_toNat (t : Byte) (fl : Flags) :
    (shiftRightArithmeticOf t fl).res.toNat = t.toNat / 2 + (if t.toNat ≥ 128 then 128 else 0) := by
  simp only [shiftRightArithmeticOf, shifted]
  revert t; decide

theorem swapOf_res_toNat (t : Byte) (fl : Flags) :
    (swapOf t fl).res.toNat = t.toNat % 16 * 16 + t.toNat / 16 := by
  simp only [swapOf, shifted]
  revert t; decide

end Sys2Proof.Machine
end

