-- ==== Sys2Proof/Laws/Arithmetic.lean ====
section
/-! SUPPORT. What each shared operation of Machine/Arithmetic.lean does, whole, on exact integers
(40_arithmetic_logical.md R63 to R73). -/

namespace Sys2Proof.Machine

/-- The carry in as it stands in a flag computation gives the same flag as its value. -/
theorem FlagsAre.of_eq {t : State} {z n h c z' n' h' c' : Bool} (hf : FlagsAre t z n h c)
    (hz : z = z') (hn : n = n') (hh : h = h') (hc : c = c') : FlagsAre t z' n' h' c' := by
  subst hz hn hh hc; exact hf

/-- An addition into A with any carry in. -/
theorem sum_next (x : Byte) (cin : Flags → Bool) (s : State) :
    ∃ t, onAccumulator (fun a fl => sumOf a x (cin fl)) s = .next t ∧
      regNat .a t = (regNat .a s + x.toNat + (cin (readFlags s)).toNat) % 256 ∧
      FlagsAre t (decide ((regNat .a s + x.toNat + (cin (readFlags s)).toNat) % 256 = 0)) false
        (decide (regNat .a s % 16 + x.toNat % 16 + (cin (readFlags s)).toNat > 15))
        (decide (regNat .a s + x.toNat + (cin (readFlags s)).toNat > 255)) ∧
      OnlyWrites [.a, .f] s t := by
  obtain ⟨t, ht, hr, hf, hw⟩ := onAccumulator_next (fun a fl => sumOf a x (cin fl)) s
  refine ⟨t, ht, ?_, hf.of_eq (isZero_sumOf _ _ _) rfl (halfCarryOfAdd_eq _ _ _) rfl, hw⟩
  rw [regNat, hr, sumOf_res_toNat, regNat]

/-- A subtraction into A with any carry in. -/
theorem difference_next (x : Byte) (cin : Flags → Bool) (s : State) :
    ∃ t, onAccumulator (fun a fl => differenceOf a x (cin fl)) s = .next t ∧
      (regNat .a t : Int) = ((regNat .a s : Int) - x.toNat - (cin (readFlags s)).toNat) % 256 ∧
      FlagsAre t (decide (((regNat .a s : Int) - x.toNat - (cin (readFlags s)).toNat) % 256 = 0)) true
        (decide (regNat .a s % 16 < x.toNat % 16 + (cin (readFlags s)).toNat))
        (decide (x.toNat + (cin (readFlags s)).toNat > regNat .a s)) ∧
      OnlyWrites [.a, .f] s t := by
  obtain ⟨t, ht, hr, hf, hw⟩ := onAccumulator_next (fun a fl => differenceOf a x (cin fl)) s
  refine ⟨t, ht, ?_, hf.of_eq (isZero_differenceOf _ _ _) rfl (halfBorrow_eq _ _ _) rfl, hw⟩
  rw [regNat, hr, differenceOf_res_toNat, regNat]

/-- Increment of a register other than F. -/
theorem increment_next {r : Reg} (h : r ≠ .f) (s : State) :
    ∃ t, onTarget r incrementOf s = .next t ∧ regNat r t = (regNat r s + 1) % 256 ∧
      FlagsAre t (decide ((regNat r s + 1) % 256 = 0)) false (decide (regNat r s % 16 + 1 > 15))
        (readFlag .carry s) ∧
      OnlyWrites [r, .f] s t := by
  obtain ⟨t, ht, hr, hf, hw⟩ := onTarget_next h incrementOf s
  refine ⟨t, ht, ?_, hf.of_eq ?_ rfl (halfCarryOfIncrement_eq _) rfl, hw⟩
  · rw [regNat, hr, incrementOf_res_toNat, regNat]
  · show isZero (incrementOf (readReg r s) (readFlags s)).res = _
    rw [isZero_eq_decide, incrementOf_res_toNat, regNat]

/-- Decrement of a register other than F. -/
theorem decrement_next {r : Reg} (h : r ≠ .f) (s : State) :
    ∃ t, onTarget r decrementOf s = .next t ∧ (regNat r t : Int) = ((regNat r s : Int) - 1) % 256 ∧
      FlagsAre t (decide (((regNat r s : Int) - 1) % 256 = 0)) true (decide (regNat r s % 16 < 1))
        (readFlag .carry s) ∧
      OnlyWrites [r, .f] s t := by
  obtain ⟨t, ht, hr, hf, hw⟩ := onTarget_next h decrementOf s
  refine ⟨t, ht, ?_, hf.of_eq ?_ rfl (halfBorrowOfDecrement_eq _) rfl, hw⟩
  · rw [regNat, hr, decrementOf_res_toNat, regNat]
  · show isZero (decrementOf (readReg r s) (readFlags s)).res = _
    rw [isZero_eq_decide, decide_eq_decide, ← Int.natCast_eq_zero, decrementOf_res_toNat, regNat]

/-- What H and L hold after a pair is written to them, with the flags and the answer. -/
theorem pairNat_writePair_HL (v : Pair) (fl : Flags) (s : State) :
    pairNat .h .l (answer .done (writeFlags fl (writePair .h .l v s))) = v.toNat := by
  have hv := v.isLt
  rw [pairNat, regNat, regNat, readReg_answer, readReg_answer, readReg_writeFlags_of_ne (by decide),
    readReg_writeFlags_of_ne (by decide), writePair, readReg_writeReg_of_ne (by decide),
    readReg_writeReg_self (by decide), readReg_writeReg_self (by decide), highByte_toNat, lowByte_toNat]
  omega

/-- AddHL with any pair as operand. -/
theorem addHL_next (hi lo : Reg) (s : State) :
    ∃ t, execAddHL hi lo s = .next t ∧
      pairNat .h .l t = (pairNat .h .l s + pairNat hi lo s) % 65536 ∧
      FlagsAre t (decide ((pairNat .h .l s + pairNat hi lo s) % 65536 = 0)) false
        (decide (pairNat .h .l s % 4096 + pairNat hi lo s % 4096 > 4095))
        (decide (pairNat .h .l s + pairNat hi lo s > 65535)) ∧
      OnlyWrites [.h, .l, .f] s t := by
  refine ⟨_, rfl, ?_, ((flagsAre_writeFlags _ _).answer _).of_eq ?_ rfl ?_ ?_, onlyWrites_done (fun q hq => ?_) rfl⟩
  · rw [pairNat_writePair_HL, pairSum_toNat, srcPair, readPair_toNat, readPair_toNat]
  · rw [← readPair_toNat, ← readPair_toNat]; exact isZero_pairSum _ _
  · rw [← readPair_toNat, ← readPair_toNat]; exact halfCarryOfAddPair_eq _ _
  · rw [← readPair_toNat, ← readPair_toNat]; rfl
  · simp only [List.mem_cons, List.not_mem_nil, or_false, not_or] at hq
    rw [readReg_writeFlags_of_ne hq.2.2, writePair, readReg_writeReg_of_ne hq.2.1, readReg_writeReg_of_ne hq.1]

end Sys2Proof.Machine
end

