-- ==== Sys2Proof/Laws/Decode.lean ====
section
/-! SUPPORT. The command word and its fields are two views of one number (30_encoding.md R47); codes and names
correspond (R12, R49); the words of Safety are words with those fields (R48). -/

namespace Sys2Proof

/-! ## Selectors and kinds -/

@[simp] theorem Reg.ofCode_code (r : Reg) : Reg.ofCode r.code = r := by cases r <;> rfl

theorem Reg.code_ofCode (c : BitVec 3) : (Reg.ofCode c).code = c := by revert c; decide

@[simp] theorem Kind.ofCode_code (k : Kind) : Kind.ofCode k.code = some k := by cases k <;> rfl

theorem Kind.code_of_ofCode {c : BitVec 8} {k : Kind} (h : Kind.ofCode c = some k) : k.code = c := by
  simpa using List.find?_some h

/-! ## Fields -/

/-- A word has the fields it was joined from. -/
@[simp] theorem fieldsOf_joinFields (f : Fields) : fieldsOf (joinFields f) = f := by
  obtain ⟨k, b, m, z, hi, lo, v⟩ := f
  simp only [fieldsOf, joinFields, Fields.mk.injEq]
  refine ⟨?_, ?_, ?_, ?_, ?_, ?_, ?_⟩ <;>
  · ext j hj
    simp only [BitVec.getElem_extractLsb', BitVec.getLsbD_append]
    (repeat' split) <;> first | omega | skip
    all_goals rw [BitVec.getLsbD_eq_getElem (by omega)]
    all_goals congr 1; omega

/-- A word is joined from its fields. -/
@[simp] theorem joinFields_fieldsOf (w : Word) : joinFields (fieldsOf w) = w := by
  simp only [fieldsOf, joinFields]
  ext j hj
  simp only [BitVec.getElem_append, BitVec.getElem_extractLsb']
  (repeat' split)
  all_goals (rw [BitVec.getLsbD_eq_getElem (by omega)]; congr 1; omega)

/-- A word as the or of its fields, each shifted to its place (R47). -/
theorem joinFields_eq_or (f : Fields) :
    joinFields f = (f.kind.setWidth 32 <<< 24) ||| (f.b.setWidth 32 <<< 16) ||| (f.m.setWidth 32 <<< 15) |||
      (f.reserved.setWidth 32 <<< 14) ||| (f.hi.setWidth 32 <<< 11) ||| (f.lo.setWidth 32 <<< 8) |||
      f.v.setWidth 32 := by
  obtain ⟨k, b, m, z, hi, lo, v⟩ := f
  simp only [joinFields]
  refine BitVec.eq_of_getLsbD_eq fun j hj => ?_
  simp only [BitVec.getLsbD_append, BitVec.getLsbD_or, BitVec.getLsbD_shiftLeft, BitVec.getLsbD_setWidth]
  interval_cases j <;> simp

/-- The decoder reads a joined word by its fields alone. -/
theorem decode_joinFields (k : Kind) (f : Fields) (h : f.kind = k.code) : decode (joinFields f) = decodeKind k f := by
  simp only [decode, fieldsOf_joinFields, h, Kind.ofCode_code]

end Sys2Proof

namespace Sys2Proof.Machine

/-! ## The words of Safety (R48) -/

theorem wordNone_eq (k : Kind) : wordNone k.code = joinFields (fieldsNone k) := by
  simp [wordNone, joinFields_eq_or, fieldsNone]

theorem wordReg_eq (k : Kind) (r : Reg) : wordReg k.code r = joinFields (fieldsReg k r) := by
  simp [wordReg, wordNone, joinFields_eq_or, fieldsReg, fieldsNone]

theorem wordVal_eq (k : Kind) (v : Byte) : wordVal k.code v = joinFields (fieldsVal k v) := by
  simp [wordVal, wordNone, joinFields_eq_or, fieldsVal, fieldsNone]

theorem wordPair_eq (k : Kind) (hi lo : Reg) : wordPair k.code hi lo = joinFields (fieldsPair k hi lo) := by
  simp [wordPair, wordNone, joinFields_eq_or, fieldsPair, fieldsNone]

theorem wordBitReg_eq (k : Kind) (b : BitVec 8) (r : Reg) :
    wordBitReg k.code b r = joinFields (fieldsBitReg k b r) := by
  simp [wordBitReg, wordNone, joinFields_eq_or, fieldsBitReg, fieldsNone]

theorem wordBitVal_eq (k : Kind) (b : BitVec 8) (v : Byte) :
    wordBitVal k.code b v = joinFields (fieldsBitVal k b v) := by
  simp [wordBitVal, wordNone, joinFields_eq_or, fieldsBitVal, fieldsNone]

end Sys2Proof.Machine
end

