-- ==== Sys2Proof/Laws/Table.lean ====
section
/-! SUPPORT. The opcode table read field by field: a row's mask and match are words whose fields are all ones or all
zeros, so a word matches a row exactly when it has the row's kind code and fits the row's format
(30_encoding.md R48, R54, R55). -/

namespace Sys2Proof

theorem joinFields_and (f g : Fields) : joinFields f &&& joinFields g = joinFields
    { kind := f.kind &&& g.kind, b := f.b &&& g.b, m := f.m &&& g.m, reserved := f.reserved &&& g.reserved,
      hi := f.hi &&& g.hi, lo := f.lo &&& g.lo, v := f.v &&& g.v } := by
  obtain ⟨k, b, m, z, hi, lo, v⟩ := f
  obtain ⟨k', b', m', z', hi', lo', v'⟩ := g
  simp only [joinFields]
  refine BitVec.eq_of_getLsbD_eq fun j hj => ?_
  simp only [BitVec.getLsbD_append, BitVec.getLsbD_and]
  (repeat' split) <;> rfl

theorem joinFields_injective {f g : Fields} (h : joinFields f = joinFields g) : f = g := by
  rw [← fieldsOf_joinFields f, h, fieldsOf_joinFields]

/-- The fields of a format's mask: all ones where the format fixes the field, zeros where it uses it (R48). -/
def Format.maskFields : Format → Fields
  | .n => ⟨0xFF, 0xFF, 1, 1, 7, 7, 0xFF⟩
  | .s | .t => ⟨0xFF, 0xFF, 1, 1, 7, 0, 0xFF⟩
  | .v => ⟨0xFF, 0xFF, 1, 1, 7, 7, 0⟩
  | .p => ⟨0xFF, 0xFF, 1, 1, 0, 0, 0xFF⟩
  | .bs | .bt => ⟨0xFF, 0, 1, 1, 7, 0, 0xFF⟩
  | .bv => ⟨0xFF, 0, 1, 1, 7, 7, 0⟩

/-- The value of `m` in a format (R51). -/
def Format.mode : Format → BitVec 1
  | .v | .bv => 1
  | .n | .s | .t | .p | .bs | .bt => 0

/-- Every row's mask is its format's, and its match is its kind code with its format's mode. -/
theorem opcodeTable_by_format : ∀ row ∈ opcodeTable, row.mask = joinFields row.format.maskFields ∧
    row.bits = joinFields { fieldsNone row.kind with m := row.format.mode } := by
  decide

/-- A word matches a row of the table exactly when it has the row's kind code and fits the row's format. -/
theorem accepts_iff {row : Row} (hrow : row ∈ opcodeTable) (f : Fields) :
    row.accepts (joinFields f) = true ↔ f.kind = row.kind.code ∧ row.format.fits f = true := by
  obtain ⟨hm, hb⟩ := opcodeTable_by_format row hrow
  have ones8 : ∀ x : BitVec 8, x &&& 0xFF#8 = x := fun x => by simpa using BitVec.and_allOnes (x := x)
  have ones3 : ∀ x : BitVec 3, x &&& 7#3 = x := fun x => by simpa using BitVec.and_allOnes (x := x)
  have ones1 : ∀ x : BitVec 1, x &&& 1#1 = x := fun x => by simpa using BitVec.and_allOnes (x := x)
  rw [Row.accepts, hm, hb, joinFields_and, beq_iff_eq]
  constructor
  · intro h
    have h := joinFields_injective h
    obtain ⟨k, b, m, z, hi, lo, v⟩ := f
    cases hf : row.format <;>
      simp_all [Format.maskFields, Format.mode, Format.fits, fieldsNone]
  · rintro ⟨hk, h⟩
    obtain ⟨k, b, m, z, hi, lo, v⟩ := f
    cases hf : row.format <;>
      simp_all [Format.maskFields, Format.mode, Format.fits, fieldsNone]

end Sys2Proof
end

