-- ==== Sys2Proof/Laws/PerInstr.lean ====
section
/-! SUPPORT. Facts about every instruction as syntax, one lemma per constructor: the word of an instruction matches the
row of spec/opcode_table.json that stands for it (30_encoding.md R55). -/

namespace Sys2Proof.Laws.RowMatch

/-- The instruction's word matches a row of the table with its kind and format. -/
def Statement (i : Instr) : Prop :=
  ∃ row ∈ opcodeTable, row.kind = i.kind ∧ row.format = i.format ∧ row.accepts (encode i) = true

theorem of_fits {i : Instr} (row : Row) (hrow : row ∈ opcodeTable) (hk : row.kind = i.kind)
    (hf : row.format = i.format) (hc : (encodeFields i).kind = row.kind.code)
    (hfit : row.format.fits (encodeFields i) = true) : Statement i :=
  ⟨row, hrow, hk, hf, (accepts_iff hrow _).2 ⟨hc, hfit⟩⟩

theorem addReg (r : Reg) : Statement (.addReg r) :=
  of_fits ⟨.add, .s, 0x01000000, 0xFFFFF8FF⟩ (by decide) rfl rfl rfl rfl

theorem addVal (v : Byte) : Statement (.addVal v) :=
  of_fits ⟨.add, .v, 0x01008000, 0xFFFFFF00⟩ (by decide) rfl rfl rfl rfl

theorem addWithCarryReg (r : Reg) : Statement (.addWithCarryReg r) :=
  of_fits ⟨.addWithCarry, .s, 0x02000000, 0xFFFFF8FF⟩ (by decide) rfl rfl rfl rfl

theorem addWithCarryVal (v : Byte) : Statement (.addWithCarryVal v) :=
  of_fits ⟨.addWithCarry, .v, 0x02008000, 0xFFFFFF00⟩ (by decide) rfl rfl rfl rfl

theorem addHL (hi lo : Reg) : Statement (.addHL hi lo) :=
  of_fits ⟨.addHL, .p, 0x03000000, 0xFFFFC0FF⟩ (by decide) rfl rfl rfl rfl

theorem subReg (r : Reg) : Statement (.subReg r) :=
  of_fits ⟨.sub, .s, 0x04000000, 0xFFFFF8FF⟩ (by decide) rfl rfl rfl rfl

theorem subVal (v : Byte) : Statement (.subVal v) :=
  of_fits ⟨.sub, .v, 0x04008000, 0xFFFFFF00⟩ (by decide) rfl rfl rfl rfl

theorem subWithCarryReg (r : Reg) : Statement (.subWithCarryReg r) :=
  of_fits ⟨.subWithCarry, .s, 0x05000000, 0xFFFFF8FF⟩ (by decide) rfl rfl rfl rfl

theorem subWithCarryVal (v : Byte) : Statement (.subWithCarryVal v) :=
  of_fits ⟨.subWithCarry, .v, 0x05008000, 0xFFFFFF00⟩ (by decide) rfl rfl rfl rfl

theorem andReg (r : Reg) : Statement (.andReg r) :=
  of_fits ⟨.and, .s, 0x06000000, 0xFFFFF8FF⟩ (by decide) rfl rfl rfl rfl

theorem andVal (v : Byte) : Statement (.andVal v) :=
  of_fits ⟨.and, .v, 0x06008000, 0xFFFFFF00⟩ (by decide) rfl rfl rfl rfl

theorem orReg (r : Reg) : Statement (.orReg r) :=
  of_fits ⟨.or, .s, 0x07000000, 0xFFFFF8FF⟩ (by decide) rfl rfl rfl rfl

theorem orVal (v : Byte) : Statement (.orVal v) :=
  of_fits ⟨.or, .v, 0x07008000, 0xFFFFFF00⟩ (by decide) rfl rfl rfl rfl

theorem xorReg (r : Reg) : Statement (.xorReg r) :=
  of_fits ⟨.xor, .s, 0x08000000, 0xFFFFF8FF⟩ (by decide) rfl rfl rfl rfl

theorem xorVal (v : Byte) : Statement (.xorVal v) :=
  of_fits ⟨.xor, .v, 0x08008000, 0xFFFFFF00⟩ (by decide) rfl rfl rfl rfl

theorem compareReg (r : Reg) : Statement (.compareReg r) :=
  of_fits ⟨.compare, .s, 0x09000000, 0xFFFFF8FF⟩ (by decide) rfl rfl rfl rfl

theorem compareVal (v : Byte) : Statement (.compareVal v) :=
  of_fits ⟨.compare, .v, 0x09008000, 0xFFFFFF00⟩ (by decide) rfl rfl rfl rfl

theorem increment (r : Reg) : Statement (.increment r) :=
  of_fits ⟨.increment, .t, 0x0A000000, 0xFFFFF8FF⟩ (by decide) rfl rfl rfl rfl

theorem decrement (r : Reg) : Statement (.decrement r) :=
  of_fits ⟨.decrement, .t, 0x0B000000, 0xFFFFF8FF⟩ (by decide) rfl rfl rfl rfl

theorem complementCarry : Statement (.complementCarry) :=
  of_fits ⟨.complementCarry, .n, 0x0C000000, 0xFFFFFFFF⟩ (by decide) rfl rfl rfl rfl

theorem setCarry : Statement (.setCarry) :=
  of_fits ⟨.setCarry, .n, 0x0D000000, 0xFFFFFFFF⟩ (by decide) rfl rfl rfl rfl

theorem complement : Statement (.complement) :=
  of_fits ⟨.complement, .n, 0x0E000000, 0xFFFFFFFF⟩ (by decide) rfl rfl rfl rfl

theorem rotateRight (r : Reg) : Statement (.rotateRight r) :=
  of_fits ⟨.rotateRight, .t, 0x0F000000, 0xFFFFF8FF⟩ (by decide) rfl rfl rfl rfl

theorem rotateLeft (r : Reg) : Statement (.rotateLeft r) :=
  of_fits ⟨.rotateLeft, .t, 0x10000000, 0xFFFFF8FF⟩ (by decide) rfl rfl rfl rfl

theorem rotateRightA : Statement (.rotateRightA) :=
  of_fits ⟨.rotateRightA, .n, 0x11000000, 0xFFFFFFFF⟩ (by decide) rfl rfl rfl rfl

theorem rotateLeftA : Statement (.rotateLeftA) :=
  of_fits ⟨.rotateLeftA, .n, 0x12000000, 0xFFFFFFFF⟩ (by decide) rfl rfl rfl rfl

theorem rotateRightCarry (r : Reg) : Statement (.rotateRightCarry r) :=
  of_fits ⟨.rotateRightCarry, .t, 0x13000000, 0xFFFFF8FF⟩ (by decide) rfl rfl rfl rfl

theorem rotateLeftCarry (r : Reg) : Statement (.rotateLeftCarry r) :=
  of_fits ⟨.rotateLeftCarry, .t, 0x14000000, 0xFFFFF8FF⟩ (by decide) rfl rfl rfl rfl

theorem rotateRightCarryA : Statement (.rotateRightCarryA) :=
  of_fits ⟨.rotateRightCarryA, .n, 0x15000000, 0xFFFFFFFF⟩ (by decide) rfl rfl rfl rfl

theorem rotateLeftCarryA : Statement (.rotateLeftCarryA) :=
  of_fits ⟨.rotateLeftCarryA, .n, 0x16000000, 0xFFFFFFFF⟩ (by decide) rfl rfl rfl rfl

theorem shiftLeftArithmetic (r : Reg) : Statement (.shiftLeftArithmetic r) :=
  of_fits ⟨.shiftLeftArithmetic, .t, 0x17000000, 0xFFFFF8FF⟩ (by decide) rfl rfl rfl rfl

theorem shiftRightArithmetic (r : Reg) : Statement (.shiftRightArithmetic r) :=
  of_fits ⟨.shiftRightArithmetic, .t, 0x18000000, 0xFFFFF8FF⟩ (by decide) rfl rfl rfl rfl

theorem shiftRightLogical (r : Reg) : Statement (.shiftRightLogical r) :=
  of_fits ⟨.shiftRightLogical, .t, 0x19000000, 0xFFFFF8FF⟩ (by decide) rfl rfl rfl rfl

theorem swap (r : Reg) : Statement (.swap r) :=
  of_fits ⟨.swap, .t, 0x1A000000, 0xFFFFF8FF⟩ (by decide) rfl rfl rfl rfl

theorem bitTestReg (b : BitVec 8) (r : Reg) : Statement (.bitTestReg b r) :=
  of_fits ⟨.bitTest, .bs, 0x1B000000, 0xFF00F8FF⟩ (by decide) rfl rfl rfl rfl

theorem bitTestVal (b : BitVec 8) (v : Byte) : Statement (.bitTestVal b v) :=
  of_fits ⟨.bitTest, .bv, 0x1B008000, 0xFF00FF00⟩ (by decide) rfl rfl rfl rfl

theorem bitSet (b : BitVec 8) (r : Reg) : Statement (.bitSet b r) :=
  of_fits ⟨.bitSet, .bt, 0x1C000000, 0xFF00F8FF⟩ (by decide) rfl rfl rfl rfl

theorem bitReset (b : BitVec 8) (r : Reg) : Statement (.bitReset b r) :=
  of_fits ⟨.bitReset, .bt, 0x1D000000, 0xFF00F8FF⟩ (by decide) rfl rfl rfl rfl

end Sys2Proof.Laws.RowMatch
end

