-- ==== Sys2Proof/Laws/Step.lean ====
section
/-! SUPPORT. The step as a case split on the caller's stream, and what keeps the invariant of F: each operation that
writes the register file leaves F's stored low nibble clear (10_state.md R15, R16). -/

namespace Sys2Proof.Machine

/-! ## The step -/

theorem step_of_pending {s : State} {tx : Transaction} {rest : List Transaction} (h : s.pending = tx :: rest) :
    step s = serve tx { s with pending := rest } := by
  simp only [step, serveNext, h]

theorem step_of_idle {s : State} (h : s.pending = []) : step s = .next s := by
  simp only [step, serveNext, h]

theorem executeCommand_of_ok {w : Word} {i : Instr} (h : decode w = .ok i) (s : State) :
    executeCommand w s = exec i s := by
  simp only [executeCommand, h]

theorem executeCommand_of_error {w : Word} {e : Reject} (h : decode w = .error e) (s : State) :
    executeCommand w s = .next { s with response := some .invalidOperand } := by
  simp only [executeCommand, h]; rfl

/-- A run of the core unrolled by one step that answers next. -/
theorem run_succ {s t : State} (h : step s = .next t) (n : Nat) :
    Host.Core.run core (n + 1) s = Host.Core.run core n t := by
  simp only [Host.Core.run]; rw [show core.step s = .next t from h]

/-! ## The invariant -/

theorem and_F0_and_0F (v : Byte) : v &&& 0xF0#8 &&& 0x0F#8 = 0 := by
  rw [BitVec.and_assoc]; exact BitVec.and_zero

theorem writeReg_lowNibbleClear {s : State} (h : s.LowNibbleClear) (r : Reg) (v : Byte) :
    (writeReg r v s).LowNibbleClear := by
  cases r <;> first | exact h | exact and_F0_and_0F v

theorem writePair_lowNibbleClear {s : State} (h : s.LowNibbleClear) (hi lo : Reg) (v : Pair) :
    (writePair hi lo v s).LowNibbleClear :=
  writeReg_lowNibbleClear (writeReg_lowNibbleClear h _ _) _ _

theorem writeFlags_lowNibbleClear (fl : Flags) (s : State) : (writeFlags fl s).LowNibbleClear :=
  and_F0_and_0F fl.toByte

theorem writeFlag_lowNibbleClear (f : Flag) (b : Bool) (s : State) : (writeFlag f b s).LowNibbleClear :=
  and_F0_and_0F _

theorem commit_lowNibbleClear (r : Reg) (o : Computed) (s : State) : (commit r o s).LowNibbleClear :=
  writeFlags_lowNibbleClear _ _

theorem ofBoot_lowNibbleClear (boot : Reg → Byte) : (RegFile.ofBoot boot).f &&& 0x0F#8 = 0 :=
  and_F0_and_0F _

end Sys2Proof.Machine
end

