-- ==== Sys2Proof/Tests/Slice0.lean ====
section
/-! SUPPORT. Tests of the model. The expected results come from spec/ alone: the words of the decode tests are written
out from R47's fields, R48's formats and R49's codes; the words and results of the others are the vectors of
spec/95_test_vectors.md, cited by their ids (E the source's worked examples, V, W and X the spec's derived ones).
The witnesses at the end show that the hypotheses of each statement can be met together. -/

namespace Sys2Proof.Tests

open Sys2Proof Sys2Proof.Machine

/-- A register file in which every register differs from every other and from zero. -/
def base : RegFile := ⟨0x91, 0xA2, 0xB3, 0xC4, 0xD5, 0x86, 0x17, 0x60⟩

/-- The state with these registers and these transactions to serve. -/
def start (rf : RegFile) (txs : List Transaction) : State :=
  { regs := rf, pending := txs, response := none }

/-- One step: the registers and the answer after one transaction. -/
def serve1 (rf : RegFile) (tx : Transaction) : Option (RegFile × Option Response) :=
  match step (start rf [tx]) with
  | .next t => some (t.regs, t.response)
  | .fault _ => none
  | .refused _ => none

/-- The registers and the answer after one command word. -/
def after (rf : RegFile) (w : Word) : Option (RegFile × Option Response) :=
  serve1 rf (.execute w)

/-! ## Decoding: the words of R48's formats, bit by bit (kind, b, then m, reserved, hi, lo, then v) -/

theorem test_decode_add :
    decode 0b00000001_00000000_00000001_00000000#32 = .ok (.addReg .b) ∧
    decode 0b00000001_00000000_10000000_00111100#32 = .ok (.addVal 0x3C) := by decide

theorem test_decode_addWithCarry :
    decode 0b00000010_00000000_00000101_00000000#32 = .ok (.addWithCarryReg .h) ∧
    decode 0b00000010_00000000_10000000_10100101#32 = .ok (.addWithCarryVal 0xA5) := by decide

theorem test_decode_addHL :
    decode 0b00000011_00000000_00001010_00000000#32 = .ok (.addHL .b .c) ∧
    decode 0b00000011_00000000_00110101_00000000#32 = .ok (.addHL .l .h) := by decide

theorem test_decode_sub :
    decode 0b00000100_00000000_00000111_00000000#32 = .ok (.subReg .f) ∧
    decode 0b00000100_00000000_10000000_00000001#32 = .ok (.subVal 0x01) := by decide

theorem test_decode_subWithCarry :
    decode 0b00000101_00000000_00000000_00000000#32 = .ok (.subWithCarryReg .a) ∧
    decode 0b00000101_00000000_10000000_11111111#32 = .ok (.subWithCarryVal 0xFF) := by decide

theorem test_decode_and :
    decode 0b00000110_00000000_00000011_00000000#32 = .ok (.andReg .d) ∧
    decode 0b00000110_00000000_10000000_10000000#32 = .ok (.andVal 0x80) := by decide

theorem test_decode_or :
    decode 0b00000111_00000000_00000110_00000000#32 = .ok (.orReg .l) ∧
    decode 0b00000111_00000000_10000000_01011010#32 = .ok (.orVal 0x5A) := by decide

theorem test_decode_xor :
    decode 0b00001000_00000000_00000010_00000000#32 = .ok (.xorReg .c) ∧
    decode 0b00001000_00000000_10000000_00111100#32 = .ok (.xorVal 0x3C) := by decide

theorem test_decode_compare :
    decode 0b00001001_00000000_00000100_00000000#32 = .ok (.compareReg .e) ∧
    decode 0b00001001_00000000_10000000_10100101#32 = .ok (.compareVal 0xA5) := by decide

theorem test_decode_increment :
    decode 0b00001010_00000000_00000001_00000000#32 = .ok (.increment .b) := by decide

theorem test_decode_decrement :
    decode 0b00001011_00000000_00000101_00000000#32 = .ok (.decrement .h) := by decide

theorem test_decode_complementCarry :
    decode 0b00001100_00000000_00000000_00000000#32 = .ok (.complementCarry) := by decide

theorem test_decode_setCarry :
    decode 0b00001101_00000000_00000000_00000000#32 = .ok (.setCarry) := by decide

theorem test_decode_complement :
    decode 0b00001110_00000000_00000000_00000000#32 = .ok (.complement) := by decide

theorem test_decode_rotateRight :
    decode 0b00001111_00000000_00000111_00000000#32 = .ok (.rotateRight .f) := by decide

theorem test_decode_rotateLeft :
    decode 0b00010000_00000000_00000000_00000000#32 = .ok (.rotateLeft .a) := by decide

theorem test_decode_rotateRightA :
    decode 0b00010001_00000000_00000000_00000000#32 = .ok (.rotateRightA) := by decide

theorem test_decode_rotateLeftA :
    decode 0b00010010_00000000_00000000_00000000#32 = .ok (.rotateLeftA) := by decide

theorem test_decode_rotateRightCarry :
    decode 0b00010011_00000000_00000011_00000000#32 = .ok (.rotateRightCarry .d) := by decide

theorem test_decode_rotateLeftCarry :
    decode 0b00010100_00000000_00000110_00000000#32 = .ok (.rotateLeftCarry .l) := by decide

theorem test_decode_rotateRightCarryA :
    decode 0b00010101_00000000_00000000_00000000#32 = .ok (.rotateRightCarryA) := by decide

theorem test_decode_rotateLeftCarryA :
    decode 0b00010110_00000000_00000000_00000000#32 = .ok (.rotateLeftCarryA) := by decide

theorem test_decode_shiftLeftArithmetic :
    decode 0b00010111_00000000_00000010_00000000#32 = .ok (.shiftLeftArithmetic .c) := by decide

theorem test_decode_shiftRightArithmetic :
    decode 0b00011000_00000000_00000100_00000000#32 = .ok (.shiftRightArithmetic .e) := by decide

theorem test_decode_shiftRightLogical :
    decode 0b00011001_00000000_00000001_00000000#32 = .ok (.shiftRightLogical .b) := by decide

theorem test_decode_swap :
    decode 0b00011010_00000000_00000101_00000000#32 = .ok (.swap .h) := by decide

theorem test_decode_bitTest :
    decode 0b00011011_00000011_00000001_00000000#32 = .ok (.bitTestReg 3 .b) ∧
    decode 0b00011011_10000000_10000000_00001111#32 = .ok (.bitTestVal 0x80 0x0F) := by decide

theorem test_decode_bitSet :
    decode 0b00011100_00000011_00000111_00000000#32 = .ok (.bitSet 3 .f) := by decide

theorem test_decode_bitReset :
    decode 0b00011101_00000111_00000000_00000000#32 = .ok (.bitReset 7 .a) := by decide

/-- The words of W1 to W4: reserved kind codes (R56). -/
theorem test_reject_reserved_kind :
    decode 0x00000000 = .error (.reservedKind 0x00) ∧ decode 0x1E000000 = .error (.reservedKind 0x1E) ∧
    decode 0xFF000000 = .error (.reservedKind 0xFF) ∧ decode 0xFFFFFFFF = .error (.reservedKind 0xFF) :=
  ⟨rfl, rfl, rfl, rfl⟩

/-- The words of W5 to W10: a field that the format of Add does not use (R54). -/
theorem test_reject_unused_field_add :
    [0x01000101#32, 0x01000900, 0x01004100, 0x01010100, 0x0100813C, 0x0101803C].map decode =
      List.replicate 6 (.error (.unusedFieldNonzero .add)) := rfl

/-- The words of W11 to W14 and W19: value mode on a kind that has none (R51). -/
theorem test_reject_value_mode :
    decode 0x0A008005 = .error (.noValueMode .increment) ∧ decode 0x1A008000 = .error (.noValueMode .swap) ∧
    decode 0x1C038008 = .error (.noValueMode .bitSet) ∧ decode 0x03008A00 = .error (.noValueMode .addHL) ∧
    decode 0x12008000 = .error (.noValueMode .rotateLeftA) :=
  ⟨rfl, rfl, rfl, rfl, rfl⟩

/-- The words of W15 to W18 and W20 to W23: an unused field of the other formats (R54). -/
theorem test_reject_unused_field :
    [0x03010A00#32, 0x03000A01].map decode = List.replicate 2 (.error (.unusedFieldNonzero .addHL)) ∧
    [0x0D000001#32, 0x0D000100].map decode = List.replicate 2 (.error (.unusedFieldNonzero .setCarry)) ∧
    [0x1B038108#32, 0x1B030101, 0x1B030900].map decode = List.replicate 3 (.error (.unusedFieldNonzero .bitTest)) ∧
    decode 0x1C074500 = .error (.unusedFieldNonzero .bitSet) :=
  ⟨rfl, rfl, rfl, rfl⟩

/-- W1: a word of no row is answered InvalidOperand, all registers unchanged. -/
theorem test_no_row_W1 : after base 0x00000000 = some (base, some .invalidOperand) := by decide

/-- A table word is the command word itself (`Add B`, R60), and no row has more than 32 bits (R47). -/
theorem test_decode_table_word :
    decodeTableWord 32 0x01000100 = some (.addReg .b) ∧ decodeTableWord 32 0 = none ∧
    decodeTableWord 40 0x01000100 = none := by decide

/-- A placed word is the first the core serves after reset: `SetCarry` (R60) is answered Done. -/
theorem test_fetch_word_after_reset :
    (match step (State.reset.withFetchWord 32 0x0D000000) with
      | .next t => t.response
      | .fault _ => none
      | .refused _ => none) = some .done := by decide

/-! ## Well-formedness: an ill-formed term for each check (R57) -/

/-- R57 (a): bit index 8 is refused and 7 accepted, in every kind that has one. -/
theorem test_wf_bit_index :
    (∀ i ∈ [Instr.bitTestReg 8 .b, .bitTestVal 8 0xFF, .bitSet 8 .b, .bitReset 8 .b, .bitReset 255 .c],
      i.wellFormed = false) ∧
    (∀ i ∈ [Instr.bitTestReg 7 .b, .bitTestVal 7 0xFF, .bitSet 7 .b, .bitReset 7 .b], i.wellFormed = true) := by
  decide

/-- R57 (b): F as a tgt is refused in every read-modify-write kind. -/
theorem test_wf_target_f :
    ∀ i ∈ [Instr.increment .f, .decrement .f, .rotateRight .f, .rotateLeft .f, .rotateRightCarry .f,
      .rotateLeftCarry .f, .shiftLeftArithmetic .f, .shiftRightArithmetic .f, .shiftRightLogical .f, .swap .f,
      .bitSet 0 .f, .bitReset 0 .f], i.wellFormed = false := by decide

/-- F as a src or a pair half is legal (R53, R62). -/
theorem test_wf_source_f :
    ∀ i ∈ [Instr.addReg .f, .compareReg .f, .addHL .a .f, .bitTestReg 7 .f, .increment .l], i.wellFormed = true := by
  decide

/-! ## One command each: vectors of 95_test_vectors.md -/

/-- V7: `Add A`. -/
theorem test_add_reg_V7 : after { base with a := 0x88, f := 0x00 } 0x01000000 =
    some ({ base with a := 0x10, f := 0x30 }, some .done) := by decide

/-- V8: `Add F`. -/
theorem test_add_reg_V8 : after { base with a := 0x10, f := 0xF0 } 0x01000700 =
    some ({ base with a := 0x00, f := 0x90 }, some .done) := by decide

/-- V2: `Add #0x01`. -/
theorem test_add_val_V2 : after { base with a := 0x0F, f := 0x00 } 0x01008001 =
    some ({ base with a := 0x10, f := 0x20 }, some .done) := by decide

/-- V4: `Add #0x00`. -/
theorem test_add_val_V4 : after { base with a := 0x00, f := 0xF0 } 0x01008000 =
    some ({ base with a := 0x00, f := 0x80 }, some .done) := by decide

/-- V16: `AddWithCarry B`. -/
theorem test_adc_reg_V16 : after { base with a := 0xE1, b := 0x1E, f := 0x10 } 0x02000100 =
    some ({ base with a := 0x00, b := 0x1E, f := 0xB0 }, some .done) := by decide

/-- V17: `AddWithCarry F`. -/
theorem test_adc_reg_V17 : after { base with a := 0x00, f := 0x10 } 0x02000700 =
    some ({ base with a := 0x11, f := 0x00 }, some .done) := by decide

/-- V11: `AddWithCarry #0xFF`. -/
theorem test_adc_val_V11 : after { base with a := 0xFF, f := 0x10 } 0x020080FF =
    some ({ base with a := 0xFF, f := 0x30 }, some .done) := by decide

/-- V14: `AddWithCarry #0x0F`. -/
theorem test_adc_val_V14 : after { base with a := 0x00, f := 0x10 } 0x0200800F =
    some ({ base with a := 0x10, f := 0x20 }, some .done) := by decide

/-- V18: `AddHL B,C`. -/
theorem test_addHL_V18 : after { base with b := 0x00, c := 0x01, h := 0x0F, l := 0xFF, f := 0x40 } 0x03000A00 =
    some ({ base with b := 0x00, c := 0x01, h := 0x10, l := 0x00, f := 0x20 }, some .done) := by decide

/-- V24: `AddHL L,H`. -/
theorem test_addHL_V24 : after { base with h := 0x12, l := 0x34, f := 0x00 } 0x03003500 =
    some ({ base with h := 0x46, l := 0x46, f := 0x00 }, some .done) := by decide

/-- E3a: `Sub B`. -/
theorem test_sub_reg_E3a : after { base with a := 0x00, b := 0x01, f := 0x00 } 0x04000100 =
    some ({ base with a := 0xFF, b := 0x01, f := 0x70 }, some .done) := by decide

/-- V32: `Sub A`. -/
theorem test_sub_reg_V32 : after { base with a := 0x5C, f := 0x10 } 0x04000000 =
    some ({ base with a := 0x00, f := 0xC0 }, some .done) := by decide

/-- V30: `Sub #0x40`. -/
theorem test_sub_val_V30 : after { base with a := 0x3E, f := 0x00 } 0x04008040 =
    some ({ base with a := 0xFE, f := 0x50 }, some .done) := by decide

/-- V31: `Sub #0x0F`. -/
theorem test_sub_val_V31 : after { base with a := 0x3E, f := 0x00 } 0x0400800F =
    some ({ base with a := 0x2F, f := 0x60 }, some .done) := by decide

/-- V42: `SubWithCarry A`. -/
theorem test_sbc_reg_V42 : after { base with a := 0x77, f := 0x10 } 0x05000000 =
    some ({ base with a := 0xFF, f := 0x70 }, some .done) := by decide

/-- V43: `SubWithCarry H`. -/
theorem test_sbc_reg_V43 : after { base with a := 0x3B, h := 0x4F, f := 0x10 } 0x05000500 =
    some ({ base with a := 0xEB, h := 0x4F, f := 0x70 }, some .done) := by decide

/-- V37: `SubWithCarry #0x0F`. -/
theorem test_sbc_val_V37 : after { base with a := 0x10, f := 0x10 } 0x0500800F =
    some ({ base with a := 0x00, f := 0xE0 }, some .done) := by decide

/-- V38: `SubWithCarry #0xFF`. -/
theorem test_sbc_val_V38 : after { base with a := 0x00, f := 0x10 } 0x050080FF =
    some ({ base with a := 0x00, f := 0xF0 }, some .done) := by decide

/-- V47: `And A`. -/
theorem test_and_reg_V47 : after { base with a := 0x00, f := 0x00 } 0x06000000 =
    some ({ base with a := 0x00, f := 0xA0 }, some .done) := by decide

/-- V48: `And F`. -/
theorem test_and_reg_V48 : after { base with a := 0xFF, f := 0x90 } 0x06000700 =
    some ({ base with a := 0x90, f := 0x20 }, some .done) := by decide

/-- V44: `And #0x3F`. -/
theorem test_and_val_V44 : after { base with a := 0x5A, f := 0x50 } 0x0600803F =
    some ({ base with a := 0x1A, f := 0x20 }, some .done) := by decide

/-- V45: `And #0x0F`. -/
theorem test_and_val_V45 : after { base with a := 0xF0, f := 0x00 } 0x0600800F =
    some ({ base with a := 0x00, f := 0xA0 }, some .done) := by decide

/-- V51: `Or A`. -/
theorem test_or_reg_V51 : after { base with a := 0x5A, f := 0x00 } 0x07000000 =
    some ({ base with a := 0x5A, f := 0x00 }, some .done) := by decide

/-- V49: `Or #0x00`. -/
theorem test_or_val_V49 : after { base with a := 0x00, f := 0x70 } 0x07008000 =
    some ({ base with a := 0x00, f := 0x80 }, some .done) := by decide

/-- V50: `Or #0x0F`. -/
theorem test_or_val_V50 : after { base with a := 0x5A, f := 0x10 } 0x0700800F =
    some ({ base with a := 0x5F, f := 0x00 }, some .done) := by decide

/-- V52: `Xor A`. -/
theorem test_xor_reg_V52 : after { base with a := 0xFF, f := 0x70 } 0x08000000 =
    some ({ base with a := 0x00, f := 0x80 }, some .done) := by decide

/-- V54: `Xor L`. -/
theorem test_xor_reg_V54 : after { base with a := 0xAA, l := 0xAA, f := 0x00 } 0x08000600 =
    some ({ base with a := 0x00, l := 0xAA, f := 0x80 }, some .done) := by decide

/-- V53: `Xor #0x0F`. -/
theorem test_xor_val_V53 : after { base with a := 0xFF, f := 0x00 } 0x0800800F =
    some ({ base with a := 0xF0, f := 0x00 }, some .done) := by decide

/-- V58: `Compare A`. -/
theorem test_compare_reg_V58 : after { base with a := 0x99, f := 0x10 } 0x09000000 =
    some ({ base with a := 0x99, f := 0xC0 }, some .done) := by decide

/-- V60: `Compare B`. -/
theorem test_compare_reg_V60 : after { base with a := 0x10, b := 0x01, f := 0x00 } 0x09000100 =
    some ({ base with a := 0x10, b := 0x01, f := 0x60 }, some .done) := by decide

/-- V55: `Compare #0x2F`. -/
theorem test_compare_val_V55 : after { base with a := 0x3C, f := 0x00 } 0x0900802F =
    some ({ base with a := 0x3C, f := 0x60 }, some .done) := by decide

/-- V57: `Compare #0x40`. -/
theorem test_compare_val_V57 : after { base with a := 0x3C, f := 0x00 } 0x09008040 =
    some ({ base with a := 0x3C, f := 0x50 }, some .done) := by decide

/-- E4e: `Increment B`. -/
theorem test_increment_E4e : after { base with b := 0xFF, f := 0x00 } 0x0A000100 =
    some ({ base with b := 0x00, f := 0xA0 }, some .done) := by decide

/-- V133: `Increment F`. -/
theorem test_increment_V133 : after { base with f := 0x50 } 0x0A000700 =
    some ({ base with f := 0x50 }, some .invalidOperand) := by decide

/-- V69: `Decrement D`. -/
theorem test_decrement_V69 : after { base with d := 0x10, f := 0x10 } 0x0B000300 =
    some ({ base with d := 0x0F, f := 0x70 }, some .done) := by decide

/-- V134: `Decrement F`. -/
theorem test_decrement_V134 : after { base with f := 0x10 } 0x0B000700 =
    some ({ base with f := 0x10 }, some .invalidOperand) := by decide

/-- V71: `ComplementCarry`. -/
theorem test_complementCarry_V71 : after { base with f := 0xF0 } 0x0C000000 =
    some ({ base with f := 0x80 }, some .done) := by decide

/-- V72: `ComplementCarry`. -/
theorem test_complementCarry_V72 : after { base with f := 0x00 } 0x0C000000 =
    some ({ base with f := 0x10 }, some .done) := by decide

/-- V75: `SetCarry`. -/
theorem test_setCarry_V75 : after { base with f := 0xF0 } 0x0D000000 =
    some ({ base with f := 0x90 }, some .done) := by decide

/-- V76: `SetCarry`. -/
theorem test_setCarry_V76 : after { base with f := 0xE0 } 0x0D000000 =
    some ({ base with f := 0x90 }, some .done) := by decide

/-- V77: `Complement`. -/
theorem test_complement_V77 : after { base with a := 0x35, f := 0x00 } 0x0E000000 =
    some ({ base with a := 0xCA, f := 0x60 }, some .done) := by decide

/-- V78: `Complement`. -/
theorem test_complement_V78 : after { base with a := 0x00, f := 0x90 } 0x0E000000 =
    some ({ base with a := 0xFF, f := 0xF0 }, some .done) := by decide

/-- V81: `RotateRight B`. -/
theorem test_rotateRight_V81 : after { base with b := 0x00, f := 0x10 } 0x0F000100 =
    some ({ base with b := 0x80, f := 0x00 }, some .done) := by decide

/-- V83: `RotateRight A`. -/
theorem test_rotateRight_V83 : after { base with a := 0x01, f := 0xE0 } 0x0F000000 =
    some ({ base with a := 0x00, f := 0x90 }, some .done) := by decide

/-- V88: `RotateLeft C`. -/
theorem test_rotateLeft_V88 : after { base with c := 0x80, f := 0x10 } 0x10000200 =
    some ({ base with c := 0x01, f := 0x10 }, some .done) := by decide

/-- V137: `RotateLeft F`. -/
theorem test_rotateLeft_V137 : after { base with f := 0x10 } 0x10000700 =
    some ({ base with f := 0x10 }, some .invalidOperand) := by decide

/-- V84: `RotateRightA`. -/
theorem test_rotateRightA_V84 : after { base with a := 0x01, f := 0xE0 } 0x11000000 =
    some ({ base with a := 0x00, f := 0x10 }, some .done) := by decide

/-- V86: `RotateRightA`. -/
theorem test_rotateRightA_V86 : after { base with a := 0x81, f := 0x10 } 0x11000000 =
    some ({ base with a := 0xC0, f := 0x10 }, some .done) := by decide

/-- V91: `RotateLeftA`. -/
theorem test_rotateLeftA_V91 : after { base with a := 0x80, f := 0x00 } 0x12000000 =
    some ({ base with a := 0x00, f := 0x10 }, some .done) := by decide

/-- V92: `RotateLeftA`. -/
theorem test_rotateLeftA_V92 : after { base with a := 0x95, f := 0x10 } 0x12000000 =
    some ({ base with a := 0x2B, f := 0x10 }, some .done) := by decide

/-- V93: `RotateRightCarry D`. -/
theorem test_rotateRightCarry_V93 : after { base with d := 0x01, f := 0x00 } 0x13000300 =
    some ({ base with d := 0x80, f := 0x10 }, some .done) := by decide

/-- V94: `RotateRightCarry D`. -/
theorem test_rotateRightCarry_V94 : after { base with d := 0x00, f := 0x10 } 0x13000300 =
    some ({ base with d := 0x00, f := 0x80 }, some .done) := by decide

/-- V100: `RotateLeftCarry E`. -/
theorem test_rotateLeftCarry_V100 : after { base with e := 0x00, f := 0x10 } 0x14000400 =
    some ({ base with e := 0x00, f := 0x80 }, some .done) := by decide

/-- V101: `RotateLeftCarry E`. -/
theorem test_rotateLeftCarry_V101 : after { base with e := 0x85, f := 0x00 } 0x14000400 =
    some ({ base with e := 0x0B, f := 0x10 }, some .done) := by decide

/-- V97: `RotateRightCarryA`. -/
theorem test_rotateRightCarryA_V97 : after { base with a := 0x00, f := 0x00 } 0x15000000 =
    some ({ base with a := 0x00, f := 0x00 }, some .done) := by decide

/-- V98: `RotateRightCarryA`. -/
theorem test_rotateRightCarryA_V98 : after { base with a := 0x3B, f := 0x80 } 0x15000000 =
    some ({ base with a := 0x9D, f := 0x10 }, some .done) := by decide

/-- V103: `RotateLeftCarryA`. -/
theorem test_rotateLeftCarryA_V103 : after { base with a := 0x00, f := 0x90 } 0x16000000 =
    some ({ base with a := 0x00, f := 0x00 }, some .done) := by decide

/-- V104: `RotateLeftCarryA`. -/
theorem test_rotateLeftCarryA_V104 : after { base with a := 0x85, f := 0x00 } 0x16000000 =
    some ({ base with a := 0x0B, f := 0x10 }, some .done) := by decide

/-- V106: `ShiftLeftArithmetic B`. -/
theorem test_shiftLeftArithmetic_V106 : after { base with b := 0xFF, f := 0x00 } 0x17000100 =
    some ({ base with b := 0xFE, f := 0x10 }, some .done) := by decide

/-- V107: `ShiftLeftArithmetic B`. -/
theorem test_shiftLeftArithmetic_V107 : after { base with b := 0x01, f := 0xF0 } 0x17000100 =
    some ({ base with b := 0x02, f := 0x00 }, some .done) := by decide

/-- V111: `ShiftRightArithmetic C`. -/
theorem test_shiftRightArithmetic_V111 : after { base with c := 0x7E, f := 0x10 } 0x18000200 =
    some ({ base with c := 0x3F, f := 0x00 }, some .done) := by decide

/-- V112: `ShiftRightArithmetic C`. -/
theorem test_shiftRightArithmetic_V112 : after { base with c := 0x81, f := 0x00 } 0x18000200 =
    some ({ base with c := 0xC0, f := 0x10 }, some .done) := by decide

/-- V115: `ShiftRightLogical D`. -/
theorem test_shiftRightLogical_V115 : after { base with d := 0xFF, f := 0xF0 } 0x19000300 =
    some ({ base with d := 0x7F, f := 0x10 }, some .done) := by decide

/-- V136: `ShiftRightLogical F`. -/
theorem test_shiftRightLogical_V136 : after { base with f := 0x80 } 0x19000700 =
    some ({ base with f := 0x80 }, some .invalidOperand) := by decide

/-- V118: `Swap L`. -/
theorem test_swap_V118 : after { base with l := 0x5A, f := 0x00 } 0x1A000600 =
    some ({ base with l := 0xA5, f := 0x00 }, some .done) := by decide

/-- V135: `Swap F`. -/
theorem test_swap_V135 : after { base with f := 0xF0 } 0x1A000700 =
    some ({ base with f := 0xF0 }, some .invalidOperand) := by decide

/-- V123: `BitTest 4,F`. -/
theorem test_bitTest_reg_V123 : after { base with f := 0x10 } 0x1B040700 =
    some ({ base with f := 0x30 }, some .done) := by decide

/-- V140: `BitTest 8,B`. -/
theorem test_bitTest_reg_V140 : after { base with b := 0xFF, f := 0x00 } 0x1B080100 =
    some ({ base with b := 0xFF, f := 0x00 }, some .invalidOperand) := by decide

/-- V122: `BitTest 0,#0x01`. -/
theorem test_bitTest_val_V122 : after { base with f := 0xC0 } 0x1B008001 =
    some ({ base with f := 0x20 }, some .done) := by decide

/-- V143: `BitTest 16,#0xFF`. -/
theorem test_bitTest_val_V143 : after { base with f := 0x00 } 0x1B1080FF =
    some ({ base with f := 0x00 }, some .invalidOperand) := by decide

/-- V127: `BitSet 7,H`. -/
theorem test_bitSet_V127 : after { base with h := 0x00, f := 0xF0 } 0x1C070500 =
    some ({ base with h := 0x80, f := 0xF0 }, some .done) := by decide

/-- V144: `BitSet 9,F`. -/
theorem test_bitSet_V144 : after { base with f := 0x00 } 0x1C090700 =
    some ({ base with f := 0x00 }, some .invalidOperand) := by decide

/-- V130: `BitReset 0,A`. -/
theorem test_bitReset_V130 : after { base with a := 0xFF, f := 0x00 } 0x1D000000 =
    some ({ base with a := 0xFE, f := 0x00 }, some .done) := by decide

/-- V142: `BitReset 255,C`. -/
theorem test_bitReset_V142 : after { base with c := 0xFF, f := 0x00 } 0x1DFF0200 =
    some ({ base with c := 0xFF, f := 0x00 }, some .invalidOperand) := by decide

/-! ## The access port and reset: vectors E1 and X -/

/-- X1: `setRegister(F, 0xFF)` leaves 0xF0 in F. -/
theorem test_setRegister_X1 : serve1 base (.setRegister .f 0xFF) = some ({ base with f := 0xF0 }, some .done) := by decide

/-- X3: `setRegister(A, 0xFF)` computes no flag. -/
theorem test_setRegister_X3 : serve1 base (.setRegister .a 0xFF) = some ({ base with a := 0xFF }, some .done) := by decide

/-- X1, X2: what `getRegister(F)` returns of F=F0. -/
theorem test_getRegister_X1 : serve1 { base with f := 0xF0 } (.getRegister .f) =
    some ({ base with f := 0xF0 }, some (.byte 0xF0)) := by decide

/-- E1b: with B=BE and C=EF, `getRegisterPair(C, B)` returns 0xEFBE. -/
theorem test_getRegisterPair_E1b : serve1 { base with b := 0xBE, c := 0xEF } (.getRegisterPair .c .b) =
    some ({ base with b := 0xBE, c := 0xEF }, some (.pair 0xEFBE)) := by decide

/-- E1i: with B=BE, `getRegisterPair(B, B)` returns 0xBEBE. -/
theorem test_getRegisterPair_E1i : serve1 { base with b := 0xBE } (.getRegisterPair .b .b) =
    some ({ base with b := 0xBE }, some (.pair 0xBEBE)) := by decide

/-- E1f: `setRegisterPair(F, A, 0xABCD)` leaves F=A0 and A=CD. -/
theorem test_setRegisterPair_E1f : serve1 base (.setRegisterPair .f .a 0xABCD) =
    some ({ base with f := 0xA0, a := 0xCD }, some .done) := by decide

/-- E1h: `setRegisterPair(B, B, 0x1234)` is answered InvalidOperand, B unchanged. -/
theorem test_setRegisterPair_E1h : serve1 base (.setRegisterPair .b .b 0x1234) = some (base, some .invalidOperand) := by
  decide

/-- X6: what the four `getFlag` return of F=A0. -/
theorem test_getFlag_X6 :
    [Flag.zero, .subtract, .halfCarry, .carry].map
      (fun f => (serve1 { base with f := 0xA0 } (.getFlag f)).map Prod.snd) =
    [some (some (.flag true)), some (some (.flag false)), some (some (.flag true)), some (some (.flag false))] := by
  decide

/-- X4: `setFlag(true, Zero)` on F=00 leaves F=80. -/
theorem test_setFlag_X4 : serve1 { base with f := 0x00 } (.setFlag true .zero) =
    some ({ base with f := 0x80 }, some .done) := by decide

/-- X5: `setFlag(false, Carry)` on F=F0 leaves F=E0. -/
theorem test_setFlag_X5 : serve1 { base with f := 0xF0 } (.setFlag false .carry) =
    some ({ base with f := 0xE0 }, some .done) := by decide

/-- X11: after a reset the registers are those of BOOT. -/
theorem test_reset_X11 : serve1 base .reset = some (RegFile.ofBoot Config.boot, none) := rfl

/-- R109: F takes its boot value with the low nibble cleared. -/
theorem test_ofBoot_f : (RegFile.ofBoot fun _ => 0x5F).f = 0x50 := by decide

/-! ## Witnesses: the hypotheses of each statement, met together

A statement whose only hypothesis is `r ≠ .f` has its witness at `.l`, the register whose code is next to F's (R12). -/

theorem witness_IncrementDecrementKeepCarry : Reg.l ≠ .f := by decide
theorem witness_RotatesThroughCarry : Reg.l ≠ .f := by decide
theorem witness_EightBitRotatesCopyWrappedBit : Reg.l ≠ .f := by decide
theorem witness_ShiftsMoveOnePlace : Reg.l ≠ .f := by decide
theorem witness_SwapExchangesNibbles : Reg.l ≠ .f := by decide
theorem witness_UndoingPairsRestoreRegister : Reg.l ≠ .f := by decide

theorem witness_RotatesAreInvertible :
    Reg.l ≠ .f ∧
    List.replicate 9 (Instr.rotateRight .l) ∈ [[Instr.rotateLeft .l, .rotateRight .l], [.rotateRight .l, .rotateLeft .l],
      List.replicate 9 (.rotateLeft .l), List.replicate 9 (.rotateRight .l)] ∧
    List.replicate 8 (Instr.rotateRightCarry .l) ∈ [[Instr.rotateLeftCarry .l, .rotateRightCarry .l],
      [.rotateRightCarry .l, .rotateLeftCarry .l],
      List.replicate 8 (.rotateLeftCarry .l), List.replicate 8 (.rotateRightCarry .l)] := by decide

theorem witness_AccumulatorFormsDifferInZeroOnly :
    (Instr.rotateLeftCarryA, Instr.rotateLeftCarry .a) ∈
      [(Instr.rotateRightA, Instr.rotateRight .a), (Instr.rotateLeftA, Instr.rotateLeft .a),
        (Instr.rotateRightCarryA, Instr.rotateRightCarry .a), (Instr.rotateLeftCarryA, Instr.rotateLeftCarry .a)] := by
  decide

/-- The last bit index in its domain, and the first outside (R52). -/
theorem witness_BitTestWritesFlagsOnly : (7#8).toNat ≤ 7 ∧ (8#8).toNat > 7 := by decide

/-- One register and bit index that pass, and each way to fail with the other check passed. -/
theorem witness_BitSetResetChangeOneBit :
    ((7#8).toNat ≤ 7 ∧ Reg.l ≠ .f) ∧ ((8#8).toNat > 7 ∧ Reg.l ≠ .f) ∧ ((7#8).toNat ≤ 7 ∧ Reg.f = .f) := by decide

theorem witness_EveryKindWritesAsTheTableSays : (Instr.bitSet 7 .l).wellFormed = true := by decide

/-- Two states that differ in D and in Zero, and agree on what `AddWithCarry B` reads. -/
theorem witness_EveryKindReadsAsTheTableSays :
    (Instr.addWithCarryReg .b).wellFormed = true ∧
    (∀ q ∈ (Instr.addWithCarryReg .b).reads,
      readReg q (start base []) = readReg q (start { base with d := 0x00, f := 0xE0 } [])) ∧
    readFlag .carry (start base []) = readFlag .carry (start { base with d := 0x00, f := 0xE0 } []) ∧
    (∃ t, exec (.addWithCarryReg .b) (start base []) = .next t) ∧
    (∃ t, exec (.addWithCarryReg .b) (start { base with d := 0x00, f := 0xE0 } []) = .next t) :=
  ⟨by decide, by decide, by decide, ⟨_, rfl⟩, ⟨_, rfl⟩⟩

/-- Each domain check failed alone, and both passed. -/
theorem witness_DomainChecksDecideTheResponse :
    (∃ b, (Instr.bitTestVal 8 0).bitIndex = some b ∧ b.toNat > 7) ∧
    (Instr.swap .f).target = some .f ∧
    ((∀ b, (Instr.bitSet 7 .l).bitIndex = some b → b.toNat ≤ 7) ∧ (Instr.bitSet 7 .l).target ≠ some .f) :=
  ⟨⟨8, rfl, by decide⟩, rfl, fun _ h => by cases h; decide, by decide⟩

theorem witness_DecoderAgreesWithOpcodeTable :
    decode 0x1D070100 = .ok (.bitReset 7 .b) ∧ ∃ e, decode 0x1E000000 = .error e :=
  ⟨rfl, _, rfl⟩

theorem witness_WordsOfNoRowAreRefused :
    ((start base [.execute 0x00FFFFFF]).pending = .execute 0x00FFFFFF :: [] ∧ matchesNoRow 0x00FFFFFF) ∧
    (0x00FFFFFF#32).toNat / 2 ^ 24 = 0 ∧ (0x1E000000#32).toNat / 2 ^ 24 ≥ 0x1E := by
  exact ⟨⟨rfl, by unfold matchesNoRow; decide⟩, by decide, by decide⟩

/-- W5, `Add B` with a bit of `v` set, against the row of Add in register mode. -/
theorem witness_WordsOfNoRowAreRefused_unused :
    (⟨.add, .s, 0x01000000, 0xFFFFF8FF⟩ : Row) ∈ opcodeTable ∧
    (0x01000101#32).extractLsb' 24 8 = Kind.add.code ∧
    (0x01000101#32).getLsbD 15 = (0x01000000#32).getLsbD 15 ∧
    0x01000101#32 &&& 0xFFFFF8FF#32 ≠ 0x01000000#32 := by
  refine ⟨?_, ?_, ?_, ?_⟩ <;> decide

/-- W11, Increment in value mode. -/
theorem witness_WordsOfNoRowAreRefused_value_mode :
    (0x0A008005#32).getLsbD 15 = true ∧
    (0x0A008005#32).toNat / 2 ^ 24 ∉ [0x01, 0x02, 0x04, 0x05, 0x06, 0x07, 0x08, 0x09, 0x1B] := by decide

theorem witness_StepRunsTheDecodedInstruction :
    (start base [.execute 0x0A000100]).pending = .execute 0x0A000100 :: [] ∧
    decode 0x0A000100 = .ok (.increment .b) := ⟨rfl, rfl⟩

theorem witness_EveryCommandAnswersOneOfTwoCodes :
    (start base [.execute 0xFFFFFFFF, .reset]).pending = .execute 0xFFFFFFFF :: [.reset] := rfl

theorem witness_OneTransactionAStepInOrder :
    (start base [.getRegister .a, .reset]).pending = .getRegister .a :: [.reset] := rfl

theorem witness_IdleStepKeepsState : (start base []).pending = [] := rfl

/-- The same registers, another answer before and another stream after. -/
theorem witness_TransactionResultDependsOnRegistersAlone :
    (start base [.execute 0x0A000100]).regs =
      ({ regs := base, pending := [.execute 0x0A000100, .reset], response := some .invalidOperand } : State).regs ∧
    (∃ t, step (start base [.execute 0x0A000100]) = .next t) ∧
    (∃ t, step { regs := base, pending := [.execute 0x0A000100, .reset], response := some .invalidOperand } =
      .next t) :=
  ⟨rfl, ⟨_, rfl⟩, ⟨_, rfl⟩⟩

theorem witness_InvalidOperandChangesNoRegister :
    ∃ t, step (start base [.execute 0x1B080100]) = .next t ∧ t.response = some .invalidOperand :=
  ⟨_, rfl, rfl⟩

/-- A transaction of each cause of R97, and for the other direction the step of one answered InvalidOperand. -/
theorem witness_InvalidOperandHasExactlyTheListedCauses :
    InvalidCause (.execute 0x1B080100) ∧ InvalidCause (.execute 0x0A000700) ∧ InvalidCause (.execute 0x00000000) ∧
    InvalidCause (.setRegisterPair .b .b 0x1234) ∧
    ∃ t, step (start base [.execute 0x1B080100]) = .next t ∧ t.response = some .invalidOperand :=
  ⟨.bitIndex _ (.bitTestReg 8 .b) 8 rfl rfl (by decide), .targetF _ (.increment .f) rfl rfl,
    .noRow _ (by unfold matchesNoRow; decide), .pairHalves _ _, _, rfl, rfl⟩

theorem witness_RefusedTransactionLeavesNoTrace :
    (start base [.execute 0x0A000700, .getRegister .f]).pending = .execute 0x0A000700 :: [.getRegister .f] ∧
    [Transaction.getRegister .f] ≠ [] ∧
    ∃ t, step (start base [.execute 0x0A000700, .getRegister .f]) = .next t ∧ t.response = some .invalidOperand :=
  ⟨rfl, by decide, _, rfl, rfl⟩

theorem witness_GetRegisterReturnsTheRegister :
    (start base [.getRegister .f]).pending = .getRegister .f :: [] := rfl

theorem witness_SetRegisterWritesOneRegister :
    (start base [.setRegister .f 0xFF]).pending = .setRegister .f 0xFF :: [] := rfl

theorem witness_GetRegisterPairIsHighThenLow :
    (start base [.getRegisterPair .f .f]).pending = .getRegisterPair .f .f :: [] ∧ Reg.f = .f := ⟨rfl, rfl⟩

/-- Two registers with F as either half, and one register twice. -/
theorem witness_SetRegisterPairWritesTwoRegisters :
    ((start base [.setRegisterPair .l .f 0x12FF]).pending = .setRegisterPair .l .f 0x12FF :: [] ∧ Reg.l ≠ .f) ∧
    ((start base [.setRegisterPair .f .a 0xABCD]).pending = .setRegisterPair .f .a 0xABCD :: [] ∧ Reg.f ≠ .a) ∧
    (start base [.setRegisterPair .f .f 0]).pending = .setRegisterPair .f .f 0 :: [] ∧ Reg.f = .f :=
  ⟨⟨rfl, by decide⟩, ⟨rfl, by decide⟩, rfl, rfl⟩

theorem witness_PairRoundTrip :
    Reg.l ≠ .f ∧
    (start base [.setRegisterPair .l .f 0x12FF, .getRegisterPair .l .f]).pending =
      .setRegisterPair .l .f 0x12FF :: .getRegisterPair .l .f :: [] ∧
    (start base [.getRegisterPair .l .f, .setRegisterPair .l .f 0x1760]).pending =
      .getRegisterPair .l .f :: .setRegisterPair .l .f 0x1760 :: [] ∧
    (0x1760#16).toNat = pairNat .l .f (start base [.getRegisterPair .l .f, .setRegisterPair .l .f 0x1760]) :=
  ⟨by decide, rfl, rfl, by decide⟩

theorem witness_FlagAccessorsReachOneFlag :
    (start base [.getFlag .zero]).pending = .getFlag .zero :: [] ∧
    (start base [.setFlag false .carry]).pending = .setFlag false .carry :: [] ∧ Flag.halfCarry ≠ .carry :=
  ⟨rfl, rfl, by decide⟩

theorem witness_FlagsRegisterLowNibbleIsHardwired : Reg.l ≠ .f := by decide

theorem witness_StepKeepsLowNibbleClear :
    (start base [.setRegister .f 0xFF]).LowNibbleClear ∧ ∃ t, step (start base [.setRegister .f 0xFF]) = .next t :=
  ⟨by decide, _, rfl⟩

theorem witness_ResetTransactionForgetsEverything :
    (start base [.reset, .getRegister .a]).pending = .reset :: [.getRegister .a] := rfl

/-- An order with F neither first nor last, applied to a state that holds other values. -/
theorem witness_SnapshotIsRestoredInAnyOrder :
    (start base []).LowNibbleClear ∧ (∀ r, r ∈ [Reg.h, .a, .f, .l, .b, .c, .d, .e]) ∧
    (start ⟨0, 0, 0, 0, 0, 0, 0, 0⟩ ([Reg.h, .a, .f, .l, .b, .c, .d, .e].map
        fun r => .setRegister r (readReg r (start base [])))).pending =
      [Reg.h, .a, .f, .l, .b, .c, .d, .e].map fun r => .setRegister r (readReg r (start base [])) :=
  ⟨by decide, fun r => by cases r <;> decide, rfl⟩

end Sys2Proof.Tests
end

section
/-! The state and the access port's reads (spec/10_state.md): what a read of F is, what the two register reads of the
access port answer, and what reset loads. -/

namespace Sys2Proof.Machine

/-! ## F as its four flags -/

theorem readReg_f_and_F0 (s : State) : readReg .f s &&& 0xF0#8 = readReg .f s := by
  simp only [readReg, RegFile.get, BitVec.and_assoc, BitVec.and_self]

theorem readReg_f_and_0F (s : State) : readReg .f s &&& 0x0F#8 = 0 :=
  and_F0_and_0F s.regs.f

theorem regNat_f_mod_sixteen (s : State) : regNat .f s % 16 = 0 := by
  rw [regNat, ← lowNibble_eq_mod, lowNibble, readReg_f_and_0F]
  rfl

theorem getLsbD_ite_zero (b : Bool) (x : Byte) (i : Nat) : (if b then x else 0).getLsbD i = (b && x.getLsbD i) := by
  cases b <;> simp

theorem getLsbD_toByte (fl : Flags) (i : Nat) : fl.toByte.getLsbD i =
    (fl.zero && (0x80#8).getLsbD i || fl.subtract && (0x40#8).getLsbD i ||
      fl.halfCarry && (0x20#8).getLsbD i || fl.carry && (0x10#8).getLsbD i) := by
  simp only [Flags.toByte, BitVec.getLsbD_or, getLsbD_ite_zero]

/-- Unpacking a byte into flags and packing them again keeps bits 7 to 4 alone. -/
theorem toByte_ofByte (v : Byte) : (Flags.ofByte v).toByte = v &&& 0xF0#8 := by
  refine BitVec.eq_of_getLsbD_eq fun i hi => ?_
  rw [getLsbD_toByte, BitVec.getLsbD_and, Flags.ofByte]
  interval_cases i <;> simp [flagBit]

theorem toByte_readFlags (s : State) : (readFlags s).toByte = readReg .f s := by
  rw [readFlags, toByte_ofByte, readReg_f_and_F0]

/-- The four flags have the weights of bits 7 to 4 (R14). -/
theorem toByte_toNat (fl : Flags) :
    fl.toByte.toNat = 128 * fl.zero.toNat + 64 * fl.subtract.toNat + 32 * fl.halfCarry.toNat + 16 * fl.carry.toNat := by
  obtain ⟨z, n, h, c⟩ := fl
  cases z <;> cases n <;> cases h <;> cases c <;> rfl

/-- Settles O46: F is the byte of its own four flags, and that byte is their weighted sum. -/
theorem flagsRegisterPacksFourFlags : Obligations.FlagsRegisterPacksFourFlags := by
  intro s
  rw [regNat, ← toByte_readFlags, toByte_toNat]
  rw [readFlags_zero, readFlags_subtract, readFlags_halfCarry, readFlags_carry]

/-! ## Reads through the access port -/

theorem step_getRegister {s : State} {r : Reg} {rest : List Transaction} (h : s.pending = .getRegister r :: rest) :
    step s = .next { s with pending := rest, response := some (.byte (readReg r s)) } :=
  step_of_pending h

theorem step_getRegisterPair {s : State} {hi lo : Reg} {rest : List Transaction}
    (h : s.pending = .getRegisterPair hi lo :: rest) :
    step s = .next { s with pending := rest, response := some (.pair (readPair hi lo s)) } :=
  step_of_pending h

theorem pairNat_self (r : Reg) (s : State) : pairNat r r s = regNat r s * 257 := by
  rw [pairNat]
  omega

/-- Settles O40: the step answers with the read and leaves the registers, and a read of F has a zero low nibble. -/
theorem getRegisterReturnsTheRegister : Obligations.GetRegisterReturnsTheRegister := by
  intro s r rest h
  refine ⟨step_getRegister h, ?_⟩
  rintro rfl
  exact regNat_f_mod_sixteen s

/-- Settles O42: the step answers `readPair`, whose number is the first-named register times 256 plus the second. -/
theorem getRegisterPairIsHighThenLow : Obligations.GetRegisterPairIsHighThenLow := by
  intro s hi lo rest h
  refine ⟨readPair hi lo s, step_getRegisterPair h, readPair_toNat hi lo s, ?_⟩
  rintro rfl
  exact (readPair_toNat hi hi s).trans (pairNat_self hi s)

/-! ## Reset -/

theorem get_ofBoot (boot : Reg → Byte) (r : Reg) :
    (RegFile.ofBoot boot).get r = if r = .f then boot r &&& 0xF0#8 else boot r := by
  cases r with
  | f => simp only [RegFile.ofBoot, RegFile.get, BitVec.and_assoc, BitVec.and_self, if_true]
  | _ => rfl

/-- Settles O50: the reset state's register file is `RegFile.ofBoot` of BOOT, whatever BOOT is. -/
theorem resetLoadsBootValues : Obligations.ResetLoadsBootValues :=
  get_ofBoot Config.boot

end Sys2Proof.Machine
end

section
/-! Order of the caller's transactions (spec/20_memory.md R42): every transaction completes from the registers alone,
so a step neither sees nor disturbs what is presented after the transaction it serves. -/

namespace Sys2Proof.Machine

/-- The operation completes, and what it leaves in the registers and answers is a function of the registers it starts
from: it reads neither the caller's stream nor the last answer, and it leaves the stream as it is (R42, R99). -/
def DependsOnRegistersAlone (m : State → Result) : Prop :=
  ∀ rf : RegFile, ∃ t : State, ∀ (p : List Transaction) (o : Option Response),
    m { regs := rf, pending := p, response := o } = .next { t with pending := p }

/-- What an operation makes of a state with nothing pending and nothing answered is the result to compare with. -/
theorem DependsOnRegistersAlone.of_idle {m : State → Result}
    (h : ∀ rf : RegFile, ∃ t : State, m { regs := rf, pending := [], response := none } = .next t ∧
      ∀ p o, m { regs := rf, pending := p, response := o } = .next { t with pending := p }) :
    DependsOnRegistersAlone m :=
  fun rf => (h rf).imp fun _ ht => ht.2

theorem invalidOperand_dependsOnRegistersAlone : DependsOnRegistersAlone invalidOperand :=
  .of_idle fun _ => ⟨_, rfl, fun _ _ => rfl⟩

/-- A check on the operands, which reads no state, stands before an operation (R57). -/
theorem DependsOnRegistersAlone.refusedIf {m : State → Result} (h : DependsOnRegistersAlone m) (c : Prop)
    [Decidable c] : DependsOnRegistersAlone fun s => if c then invalidOperand s else m s := by
  by_cases hc : c
  · simpa only [if_pos hc] using invalidOperand_dependsOnRegistersAlone
  · simpa only [if_neg hc] using h

theorem onTarget_dependsOnRegistersAlone (r : Reg) (op : Byte → Flags → Computed) :
    DependsOnRegistersAlone (onTarget r op) := by
  refine .refusedIf ?_ _
  exact .of_idle fun _ => ⟨_, rfl, fun _ _ => rfl⟩

theorem onTargetBit_dependsOnRegistersAlone (b : BitVec 8) (r : Reg) (op : Byte → Byte) :
    DependsOnRegistersAlone (onTargetBit b r op) := by
  refine .refusedIf ?_ _
  exact .of_idle fun _ => ⟨_, rfl, fun _ _ => rfl⟩

/-- An instruction of a format with a check goes by its format; every other one completes by computing its result. -/
theorem exec_dependsOnRegistersAlone (i : Instr) : DependsOnRegistersAlone (exec i) := by
  cases i with
  | increment r | decrement r | rotateRight r | rotateLeft r | rotateRightCarry r | rotateLeftCarry r
  | shiftLeftArithmetic r | shiftRightArithmetic r | shiftRightLogical r | swap r =>
    exact onTarget_dependsOnRegistersAlone r _
  | bitSet b r => exact onTargetBit_dependsOnRegistersAlone b r (· ||| bitMask b)
  | bitReset b r => exact onTargetBit_dependsOnRegistersAlone b r (· &&& ~~~bitMask b)
  | bitTestReg b _ | bitTestVal b _ =>
    refine .refusedIf ?_ (bitIndexBad b = true)
    exact .of_idle fun _ => ⟨_, rfl, fun _ _ => rfl⟩
  | _ => exact .of_idle fun _ => ⟨_, rfl, fun _ _ => rfl⟩

theorem executeCommand_dependsOnRegistersAlone (w : Word) : DependsOnRegistersAlone (executeCommand w) := by
  cases h : decode w with
  | ok i =>
    rw [show executeCommand w = exec i from funext (executeCommand_of_ok h)]
    exact exec_dependsOnRegistersAlone i
  | error e =>
    rw [show executeCommand w = invalidOperand from funext (executeCommand_of_error h)]
    exact invalidOperand_dependsOnRegistersAlone

theorem serve_dependsOnRegistersAlone (tx : Transaction) : DependsOnRegistersAlone (serve tx) := by
  cases tx with
  | execute w => exact executeCommand_dependsOnRegistersAlone w
  | setRegisterPair hi lo _ =>
    refine .refusedIf ?_ (hi = lo)
    exact .of_idle fun _ => ⟨_, rfl, fun _ _ => rfl⟩
  | _ => exact .of_idle fun _ => ⟨_, rfl, fun _ _ => rfl⟩

/-- Settles O33: from the registers of `s` the transaction leaves one and the same state, save for the stream, which is
in each case what was presented after it. -/
theorem oneTransactionAStepInOrder : Obligations.OneTransactionAStepInOrder := by
  intro s tx rest h
  obtain ⟨t, ht⟩ := serve_dependsOnRegistersAlone tx s.regs
  have served : serve tx { s with pending := rest } = .next { t with pending := rest } := ht rest s.response
  exact ⟨{ t with pending := rest }, served, (step_of_pending h).trans served, rfl, fun later =>
    ⟨{ t with pending := later }, (step_of_pending rfl).trans (ht later s.response), rfl, rfl, rfl⟩⟩

end Sys2Proof.Machine
end

section
/-! The decoder against the opcode table (spec/30_encoding.md R55): an accepted word is the word of the instruction it
gives, the rows that accept a word are told apart by kind and mode, and a word that a row accepts is decoded. -/

namespace Sys2Proof

/-! ## The fields of a word that fits a format -/

theorem Format.mode_of_fits {fmt : Format} {f : Fields} (h : fmt.fits f = true) : f.m = fmt.mode := by
  cases fmt <;> simp_all [Format.fits, Format.mode]

theorem fieldsNone_of_fits {k : Kind} {f : Fields} (hk : f.kind = k.code) (h : Format.n.fits f = true) :
    fieldsNone k = f := by
  cases f
  simp_all [Format.fits, fieldsNone]

/-- Formats S and T fix the same fields. -/
theorem fieldsReg_of_fits {k : Kind} {f : Fields} (hk : f.kind = k.code) (h : Format.s.fits f = true) :
    fieldsReg k (Reg.ofCode f.lo) = f := by
  cases f
  simp_all [Format.fits, fieldsReg, fieldsNone, Reg.code_ofCode]

theorem fieldsVal_of_fits {k : Kind} {f : Fields} (hk : f.kind = k.code) (h : Format.v.fits f = true) :
    fieldsVal k f.v = f := by
  cases f
  simp_all [Format.fits, fieldsVal, fieldsNone]

theorem fieldsPair_of_fits {k : Kind} {f : Fields} (hk : f.kind = k.code) (h : Format.p.fits f = true) :
    fieldsPair k (Reg.ofCode f.hi) (Reg.ofCode f.lo) = f := by
  cases f
  simp_all [Format.fits, fieldsPair, fieldsNone, Reg.code_ofCode]

/-- Formats BS and BT fix the same fields. -/
theorem fieldsBitReg_of_fits {k : Kind} {f : Fields} (hk : f.kind = k.code) (h : Format.bs.fits f = true) :
    fieldsBitReg k f.b (Reg.ofCode f.lo) = f := by
  cases f
  simp_all [Format.fits, fieldsBitReg, fieldsNone, Reg.code_ofCode]

theorem fieldsBitVal_of_fits {k : Kind} {f : Fields} (hk : f.kind = k.code) (h : Format.bv.fits f = true) :
    fieldsBitVal k f.b f.v = f := by
  cases f
  simp_all [Format.fits, fieldsBitVal, fieldsNone]

/-! ## What the decoder of each format accepts -/

theorem Format.not_fits_of_mode_one {fmt : Format} {f : Fields} (hm : fmt.mode = 0) (h : f.m = 1) :
    ¬fmt.fits f = true := by
  intro hfit
  rw [Format.mode_of_fits hfit, hm] at h
  exact absurd h (by decide)

/-- What the decoders without a value mode have in common: of a format with `m` zero, the fit decides. -/
theorem ite_mode_fits_eq_ok {fmt : Format} {f : Fields} {e e' : Reject} {i j : Instr} (hm : fmt.mode = 0) :
    (if f.m = 1 then .error e else if fmt.fits f then .ok j else .error e' : Except Reject Instr) = .ok i ↔
      fmt.fits f = true ∧ j = i := by
  by_cases h : f.m = 1
  · have hfit := Format.not_fits_of_mode_one hm h
    rw [if_pos h]
    simp [hfit]
  · rw [if_neg h]
    by_cases hfit : fmt.fits f = true <;> simp [hfit]

/-- What the decoders with a value mode have in common: `m` selects between two formats, and the fit implies `m`. -/
theorem ite_modes_fits_eq_ok {fmt fmt' : Format} {f : Fields} {e : Reject} {i j j' : Instr} (hm : fmt.mode = 0)
    (hm' : fmt'.mode = 1) :
    (if f.m = 1 then (if fmt'.fits f then .ok j' else .error e) else if fmt.fits f then .ok j else .error e :
      Except Reject Instr) = .ok i ↔ fmt.fits f = true ∧ j = i ∨ fmt'.fits f = true ∧ j' = i := by
  by_cases h : f.m = 1
  · have hfit := Format.not_fits_of_mode_one hm h
    rw [if_pos h]
    by_cases hfit' : fmt'.fits f = true <;> simp [hfit, hfit']
  · have hfit' : ¬fmt'.fits f = true := fun hf => h ((Format.mode_of_fits hf).trans hm')
    rw [if_neg h]
    by_cases hfit : fmt.fits f = true <;> simp [hfit, hfit']

theorem decodeNone_eq_ok {k : Kind} {f : Fields} {i j : Instr} :
    decodeNone k j f = .ok i ↔ Format.n.fits f = true ∧ j = i :=
  ite_mode_fits_eq_ok rfl

theorem decodeTgt_eq_ok {k : Kind} {f : Fields} {i : Instr} {onReg : Reg → Instr} :
    decodeTgt k onReg f = .ok i ↔ Format.t.fits f = true ∧ onReg (Reg.ofCode f.lo) = i :=
  ite_mode_fits_eq_ok rfl

theorem decodePair_eq_ok {k : Kind} {f : Fields} {i : Instr} {onPair : Reg → Reg → Instr} :
    decodePair k onPair f = .ok i ↔
      Format.p.fits f = true ∧ onPair (Reg.ofCode f.hi) (Reg.ofCode f.lo) = i :=
  ite_mode_fits_eq_ok rfl

theorem decodeBitTgt_eq_ok {k : Kind} {f : Fields} {i : Instr} {onReg : BitVec 8 → Reg → Instr} :
    decodeBitTgt k onReg f = .ok i ↔ Format.bt.fits f = true ∧ onReg f.b (Reg.ofCode f.lo) = i :=
  ite_mode_fits_eq_ok rfl

theorem decodeSrc_eq_ok {k : Kind} {f : Fields} {i : Instr} {onReg : Reg → Instr} {onVal : Byte → Instr} :
    decodeSrc k onReg onVal f = .ok i ↔
      Format.s.fits f = true ∧ onReg (Reg.ofCode f.lo) = i ∨ Format.v.fits f = true ∧ onVal f.v = i :=
  ite_modes_fits_eq_ok rfl rfl

theorem decodeBitSrc_eq_ok {k : Kind} {f : Fields} {i : Instr} {onReg : BitVec 8 → Reg → Instr}
    {onVal : BitVec 8 → Byte → Instr} :
    decodeBitSrc k onReg onVal f = .ok i ↔
      Format.bs.fits f = true ∧ onReg f.b (Reg.ofCode f.lo) = i ∨ Format.bv.fits f = true ∧ onVal f.b f.v = i :=
  ite_modes_fits_eq_ok rfl rfl

/-! ## Accepted words are encodings -/

theorem encodeFields_of_decodeKind {k : Kind} {f : Fields} {i : Instr} (hk : f.kind = k.code)
    (h : decodeKind k f = .ok i) : encodeFields i = f := by
  cases k with
  | complementCarry | setCarry | complement | rotateRightA | rotateLeftA | rotateRightCarryA | rotateLeftCarryA =>
    obtain ⟨hfit, rfl⟩ := decodeNone_eq_ok.1 h
    exact fieldsNone_of_fits hk hfit
  | add | addWithCarry | sub | subWithCarry | and | or | xor | compare =>
    obtain ⟨hfit, rfl⟩ | ⟨hfit, rfl⟩ := decodeSrc_eq_ok.1 h
    · exact fieldsReg_of_fits hk hfit
    · exact fieldsVal_of_fits hk hfit
  | increment | decrement | rotateRight | rotateLeft | rotateRightCarry | rotateLeftCarry | shiftLeftArithmetic
  | shiftRightArithmetic | shiftRightLogical | swap =>
    obtain ⟨hfit, rfl⟩ := decodeTgt_eq_ok.1 h
    exact fieldsReg_of_fits hk hfit
  | addHL =>
    obtain ⟨hfit, rfl⟩ := decodePair_eq_ok.1 h
    exact fieldsPair_of_fits hk hfit
  | bitTest =>
    obtain ⟨hfit, rfl⟩ | ⟨hfit, rfl⟩ := decodeBitSrc_eq_ok.1 h
    · exact fieldsBitReg_of_fits hk hfit
    · exact fieldsBitVal_of_fits hk hfit
  | bitSet | bitReset =>
    obtain ⟨hfit, rfl⟩ := decodeBitTgt_eq_ok.1 h
    exact fieldsBitReg_of_fits hk hfit

theorem decode_of_kind {w : Word} {k : Kind} (h : (fieldsOf w).kind = k.code) :
    decode w = decodeKind k (fieldsOf w) := by
  rw [← decode_joinFields k (fieldsOf w) h, joinFields_fieldsOf]

theorem encode_of_decode {w : Word} {i : Instr} (h : decode w = .ok i) : encode i = w := by
  cases hk : Kind.ofCode (fieldsOf w).kind with
  | none => simp [decode, hk] at h
  | some k =>
    have hcode := (Kind.code_of_ofCode hk).symm
    rw [encode, encodeFields_of_decodeKind hcode (decode_of_kind hcode ▸ h), joinFields_fieldsOf]

/-! ## A word that a row accepts is decoded -/

/-- The formats of a kind's rows (R49). -/
def Kind.formats : Kind → List Format
  | .complementCarry | .setCarry | .complement | .rotateRightA | .rotateLeftA | .rotateRightCarryA
  | .rotateLeftCarryA => [.n]
  | .add | .addWithCarry | .sub | .subWithCarry | .and | .or | .xor | .compare => [.s, .v]
  | .increment | .decrement | .rotateRight | .rotateLeft | .rotateRightCarry | .rotateLeftCarry
  | .shiftLeftArithmetic | .shiftRightArithmetic | .shiftRightLogical | .swap => [.t]
  | .addHL => [.p]
  | .bitTest => [.bs, .bv]
  | .bitSet | .bitReset => [.bt]

theorem opcodeTable_formats : ∀ row ∈ opcodeTable, row.format ∈ row.kind.formats := by
  decide

theorem decodeKind_of_fits {k : Kind} {fmt : Format} {f : Fields} (hfmt : fmt ∈ k.formats)
    (hfit : fmt.fits f = true) : ∃ i, decodeKind k f = .ok i := by
  cases k with
  | complementCarry | setCarry | complement | rotateRightA | rotateLeftA | rotateRightCarryA | rotateLeftCarryA =>
    obtain rfl := List.mem_singleton.1 hfmt
    exact ⟨_, decodeNone_eq_ok.2 ⟨hfit, rfl⟩⟩
  | add | addWithCarry | sub | subWithCarry | and | or | xor | compare =>
    obtain rfl | rfl := List.mem_pair.1 hfmt
    · exact ⟨_, decodeSrc_eq_ok.2 (.inl ⟨hfit, rfl⟩)⟩
    · exact ⟨_, decodeSrc_eq_ok.2 (.inr ⟨hfit, rfl⟩)⟩
  | increment | decrement | rotateRight | rotateLeft | rotateRightCarry | rotateLeftCarry | shiftLeftArithmetic
  | shiftRightArithmetic | shiftRightLogical | swap =>
    obtain rfl := List.mem_singleton.1 hfmt
    exact ⟨_, decodeTgt_eq_ok.2 ⟨hfit, rfl⟩⟩
  | addHL =>
    obtain rfl := List.mem_singleton.1 hfmt
    exact ⟨_, decodePair_eq_ok.2 ⟨hfit, rfl⟩⟩
  | bitTest =>
    obtain rfl | rfl := List.mem_pair.1 hfmt
    · exact ⟨_, decodeBitSrc_eq_ok.2 (.inl ⟨hfit, rfl⟩)⟩
    · exact ⟨_, decodeBitSrc_eq_ok.2 (.inr ⟨hfit, rfl⟩)⟩
  | bitSet | bitReset =>
    obtain rfl := List.mem_singleton.1 hfmt
    exact ⟨_, decodeBitTgt_eq_ok.2 ⟨hfit, rfl⟩⟩

theorem accepts_iff_fieldsOf {row : Row} (hrow : row ∈ opcodeTable) (w : Word) :
    row.accepts w = true ↔ (fieldsOf w).kind = row.kind.code ∧ row.format.fits (fieldsOf w) = true := by
  rw [← accepts_iff hrow, joinFields_fieldsOf]

theorem decode_of_accepts {row : Row} {w : Word} (hrow : row ∈ opcodeTable) (h : row.accepts w = true) :
    ∃ i, decode w = .ok i := by
  obtain ⟨hk, hfit⟩ := (accepts_iff_fieldsOf hrow w).1 h
  rw [decode_of_kind hk]
  exact decodeKind_of_fits (opcodeTable_formats row hrow) hfit

/-! ## One row at most -/

theorem Kind.code_injective : Function.Injective Kind.code := fun k k' h => by
  simpa using congrArg Kind.ofCode h

theorem opcodeTable_nodup_kind_mode : (opcodeTable.map fun row => (row.kind, row.format.mode)).Nodup := by
  decide

/-- Two rows that accept one word have its kind code and its `m`, and no two rows of the table share both. -/
theorem row_eq_of_accepts {row row' : Row} {w : Word} (hrow : row ∈ opcodeTable) (hrow' : row' ∈ opcodeTable)
    (h : row.accepts w = true) (h' : row'.accepts w = true) : row = row' := by
  obtain ⟨hk, hfit⟩ := (accepts_iff_fieldsOf hrow w).1 h
  obtain ⟨hk', hfit'⟩ := (accepts_iff_fieldsOf hrow' w).1 h'
  have hkind : row.kind = row'.kind := Kind.code_injective (hk.symm.trans hk')
  have hmode : row.format.mode = row'.format.mode :=
    (Format.mode_of_fits hfit).symm.trans (Format.mode_of_fits hfit')
  exact List.inj_on_of_nodup_map opcodeTable_nodup_kind_mode hrow hrow' (Prod.ext hkind hmode)

theorem filter_accepts_eq_singleton {row : Row} {w : Word} (hrow : row ∈ opcodeTable) (h : row.accepts w = true) :
    opcodeTable.filter (fun r => r.accepts w) = [row] := by
  refine List.perm_singleton.1 ((List.perm_ext_iff_of_nodup
    (opcodeTable_nodup_kind_mode.of_map.filter _) (List.nodup_singleton row)).2 fun r => ?_)
  rw [List.mem_filter, List.mem_singleton]
  constructor
  · rintro ⟨hr, hacc⟩
    exact row_eq_of_accepts hr hrow hacc h
  · rintro rfl
    exact ⟨hrow, h⟩

/-! ## Every instruction has its row -/

theorem rowMatch_statement (i : Instr) : Laws.RowMatch.Statement i :=
  open Laws.RowMatch in
  Instr.casesOn i addReg addVal addWithCarryReg addWithCarryVal addHL subReg subVal subWithCarryReg subWithCarryVal
    andReg andVal orReg orVal xorReg xorVal compareReg compareVal increment decrement complementCarry setCarry
    complement rotateRight rotateLeft rotateRightA rotateLeftA rotateRightCarry rotateLeftCarry rotateRightCarryA
    rotateLeftCarryA shiftLeftArithmetic shiftRightArithmetic shiftRightLogical swap bitTestReg bitTestVal bitSet
    bitReset

end Sys2Proof

namespace Sys2Proof.Machine

/-- Settles O27: an accepted word is the encoding of its instruction, whose row is then the only one that accepts it,
and a word that some row accepts is not rejected. -/
theorem decoderAgreesWithOpcodeTable : Obligations.DecoderAgreesWithOpcodeTable := by
  intro w
  constructor
  · intro i hi
    have hw := encode_of_decode hi
    obtain ⟨row, hrow, hkind, hformat, hacc⟩ := rowMatch_statement i
    rw [hw] at hacc
    exact ⟨hw, row, filter_accepts_eq_singleton hrow hacc, hkind, hformat, executeCommand_of_ok hi⟩
  · rintro ⟨e, he⟩
    refine List.filter_eq_nil_iff.2 fun row hrow hacc => ?_
    obtain ⟨i, hi⟩ := decode_of_accepts hrow hacc
    rw [hi] at he
    cases he

end Sys2Proof.Machine
end

section
/-! Arithmetic, logical and compare commands (spec/40_arithmetic_logical.md R63 to R71): the words of a src kind and of
AddHL decode to their instructions, and both operand forms of a kind are one operation on the operand's value. -/

namespace Sys2Proof.Machine

/-! ## A kind with both operand forms -/

section SrcKind
variable {k : Kind} {onReg : Reg → Instr} {onVal : Byte → Instr} (hk : decodeKind k = decodeSrc k onReg onVal)
include hk

theorem decode_wordReg_of_src (r : Reg) : decode (wordReg k.code r) = .ok (onReg r) := by
  rw [wordReg_eq, decode_joinFields k _ rfl, hk, decodeSrc_eq_ok]
  exact .inl ⟨rfl, congrArg onReg (Reg.ofCode_code r)⟩

theorem decode_wordVal_of_src (v : Byte) : decode (wordVal k.code v) = .ok (onVal v) := by
  rw [wordVal_eq, decode_joinFields k _ rfl, hk, decodeSrc_eq_ok]
  exact .inr ⟨rfl, rfl⟩

/-- A src kind whose two forms are the operation `op` on the operand's value (R62) completes as `op` does. -/
theorem completesInBothModes_of_op {s : State} {P : Byte → State → Prop} (op : Byte → State → Result)
    (hReg : ∀ r, exec (onReg r) s = op (readReg r s) s) (hVal : ∀ v, exec (onVal v) s = op v s)
    (hop : ∀ x, ∃ t, op x s = .next t ∧ P x t) : CompletesInBothModes k.code onReg onVal s P := by
  constructor
  · intro r
    refine ⟨decode_wordReg_of_src hk r, ?_⟩
    rw [hReg]
    exact hop (readReg r s)
  · intro v
    refine ⟨decode_wordVal_of_src hk v, ?_⟩
    rw [hVal]
    exact hop v

end SrcKind

/-! ## Additions -/

/-- Settles O1: both forms are `addToA`, an addition into A whose carry in is zero. -/
theorem addPutsSumInA : Obligations.AddPutsSumInA := fun s =>
  completesInBothModes_of_op (k := .add) rfl addToA (fun _ => rfl) (fun _ => rfl) fun x =>
    sum_next x (fun _ => false) s

/-- Settles O2: both forms are `addWithCarryToA`, an addition into A whose carry in is the Carry flag before. -/
theorem addWithCarryAddsPreviousCarry : Obligations.AddWithCarryAddsPreviousCarry := fun s =>
  completesInBothModes_of_op (k := .addWithCarry) rfl addWithCarryToA (fun _ => rfl) (fun _ => rfl) fun x =>
    sum_next x Flags.carry s

theorem decode_wordPair_addHL (hi lo : Reg) : decode (wordPair Kind.addHL.code hi lo) = .ok (.addHL hi lo) := by
  rw [wordPair_eq, decode_joinFields .addHL _ rfl]
  refine decodePair_eq_ok.2 ⟨rfl, ?_⟩
  exact congrArg₂ Instr.addHL (Reg.ofCode_code hi) (Reg.ofCode_code lo)

/-- Settles O3: the word of any two registers decodes to AddHL of them, which adds their pair. -/
theorem addHLAddsAnyPair : Obligations.AddHLAddsAnyPair := fun s hi lo =>
  ⟨decode_wordPair_addHL hi lo, addHL_next hi lo s⟩

/-! ## Subtractions -/

/-- A subtraction into A with no carry in. -/
theorem subFromA_next (x : Byte) (s : State) :
    ∃ t, subFromA x s = .next t ∧ (regNat .a t : Int) = ((regNat .a s : Int) - x.toNat) % 256 ∧
      FlagsAre t (decide (((regNat .a s : Int) - x.toNat) % 256 = 0)) true
        (decide (regNat .a s % 16 < x.toNat % 16)) (decide (x.toNat > regNat .a s)) ∧
      OnlyWrites [.a, .f] s t := by
  simpa only [subFromA, Bool.toNat_false, Nat.cast_zero, sub_zero, add_zero] using
    difference_next x (fun _ => false) s

/-- Settles O4: both forms of either kind are a subtraction from A, with carry in zero for Sub and the Carry flag before
for SubWithCarry. -/
theorem subtractionsPutDifferenceInA : Obligations.SubtractionsPutDifferenceInA := by
  intro s
  constructor
  · exact completesInBothModes_of_op (k := .sub) rfl subFromA (fun _ => rfl) (fun _ => rfl) fun x =>
      subFromA_next x s
  · exact completesInBothModes_of_op (k := .subWithCarry) rfl subWithCarryFromA (fun _ => rfl) (fun _ => rfl)
      fun x => difference_next x Flags.carry s

/-! ## Logical kinds -/

/-- A logical operation into A: Zero from the result, HalfCarry as the kind fixes it (R68 to R70). -/
theorem logic_next (bitwise : Byte → Byte) (half : Bool) (s : State) :
    ∃ t, onAccumulator (fun a _ => logicOf (bitwise a) half) s = .next t ∧
      readReg .a t = bitwise (readReg .a s) ∧
      FlagsAre t (decide (bitwise (readReg .a s) = 0)) false half false ∧ OnlyWrites [.a, .f] s t :=
  onAccumulator_next (fun a _ => logicOf (bitwise a) half) s

/-- Settles O5: both forms of each kind are its bitwise operation on A, with the HalfCarry the kind fixes. -/
theorem logicalKindsWorkIntoA : Obligations.LogicalKindsWorkIntoA := by
  intro s
  refine ⟨?and, ?or, ?xor⟩
  case and =>
    exact completesInBothModes_of_op (k := .and) rfl (fun x => onAccumulator fun a _ => logicOf (a &&& x) true)
      (fun _ => rfl) (fun _ => rfl) fun x => logic_next (· &&& x) true s
  case or =>
    exact completesInBothModes_of_op (k := .or) rfl (fun x => onAccumulator fun a _ => logicOf (a ||| x) false)
      (fun _ => rfl) (fun _ => rfl) fun x => logic_next (· ||| x) false s
  case xor =>
    exact completesInBothModes_of_op (k := .xor) rfl (fun x => onAccumulator fun a _ => logicOf (a ^^^ x) false)
      (fun _ => rfl) (fun _ => rfl) fun x => logic_next (· ^^^ x) false s

/-! ## Compare -/

/-- Zero of a difference of two bytes with no carry in: they are equal. -/
theorem sub_emod_eq_zero_iff (a x : Byte) : ((a.toNat : Int) - x.toNat) % 256 = 0 ↔ a.toNat = x.toNat := by
  have ha := a.isLt
  have hx := x.isLt
  omega

theorem FlagsAre.readFlags_eq {t : State} {z n h c : Bool} (hf : FlagsAre t z n h c) :
    readFlags t = ⟨z, n, h, c⟩ := by
  obtain ⟨rfl, rfl, rfl, rfl⟩ := hf
  rfl

/-- F has no content beside its four flags. -/
theorem FlagsAre.readReg_f_eq {t u : State} {z n h c : Bool} (ht : FlagsAre t z n h c) (hu : FlagsAre u z n h c) :
    readReg .f t = readReg .f u := by
  rw [← toByte_readFlags t, ← toByte_readFlags u, ht.readFlags_eq, hu.readFlags_eq]

/-- Compare with either form of its operand, on exact integers. -/
theorem compareWithA_flags (x : Byte) (s : State) :
    ∃ t, compareWithA x s = .next t ∧
      FlagsAre t (decide (((regNat .a s : Int) - x.toNat) % 256 = 0)) true
        (decide (regNat .a s % 16 < x.toNat % 16)) (decide (x.toNat > regNat .a s)) ∧
      OnlyWrites [.f] s t := by
  obtain ⟨t, ht, hf, hw⟩ := compareWithA_next x s
  refine ⟨t, ht, hf.of_eq ?_ rfl (halfBorrow_eq _ _ _) rfl, hw⟩
  refine (isZero_differenceOf _ _ _).trans ?_
  rw [Bool.toNat_false, Nat.cast_zero, sub_zero, regNat]

/-- Settles O6: Compare leaves the four flags that Sub of the same operand leaves, so the two leave one F. -/
theorem compareSetsFlagsAsSub : Obligations.CompareSetsFlagsAsSub := by
  intro s
  refine completesInBothModes_of_op (k := .compare) rfl compareWithA (fun _ => rfl) (fun _ => rfl) fun x => ?_
  obtain ⟨t, ht, hft, hw⟩ := compareWithA_flags x s
  obtain ⟨u, hu, -, hfu, -⟩ := subFromA_next x s
  refine ⟨t, ht, hft.of_eq ?_ rfl rfl rfl, hw, u, hu, hft.readReg_f_eq hfu⟩
  exact decide_eq_decide.2 (sub_emod_eq_zero_iff (readReg .a s) x)

end Sys2Proof.Machine
end

section
/-! Flag-only commands (spec/41_flag_only.md R77 to R79): the words of a kind without an operand decode to its
instruction, and a command that writes the four flags alone leaves everything else. -/

namespace Sys2Proof.Machine

theorem decode_wordNone {k : Kind} {i : Instr} (hk : decodeKind k = decodeNone k i) :
    decode (wordNone k.code) = .ok i := by
  rw [wordNone_eq, decode_joinFields k _ rfl, hk, decodeNone_eq_ok]
  exact ⟨rfl, rfl⟩

/-- A command that writes the four flags and no register but F, whole. -/
theorem writeFlags_next (fl : Flags) (s : State) :
    ∃ t, answerDone (writeFlags fl s) = .next t ∧
      FlagsAre t fl.zero fl.subtract fl.halfCarry fl.carry ∧ OnlyWrites [.f] s t := by
  refine ⟨_, rfl, (flagsAre_writeFlags fl s).answer .done, onlyWrites_done (fun q hq => ?_) rfl⟩
  exact readReg_writeFlags_of_ne (List.ne_of_not_mem_cons hq) fl s

/-- Settles O9: the flags written are those before with Subtract and HalfCarry cleared and Carry inverted. -/
theorem complementCarryInvertsCarry : Obligations.ComplementCarryInvertsCarry := fun s =>
  ⟨decode_wordNone (k := .complementCarry) rfl,
    writeFlags_next { readFlags s with subtract := false, halfCarry := false, carry := !(readFlags s).carry } s⟩

/-- Settles O10: the flags written are those before with Subtract and HalfCarry cleared and Carry set. -/
theorem setCarryKeepsZero : Obligations.SetCarryKeepsZero := fun s =>
  ⟨decode_wordNone (k := .setCarry) rfl,
    writeFlags_next { readFlags s with subtract := false, halfCarry := false, carry := true } s⟩

/-- Complement into A, on exact integers. -/
theorem complement_next (s : State) :
    ∃ t, execComplement s = .next t ∧ regNat .a t = 255 - regNat .a s ∧
      FlagsAre t (readFlag .zero s) true true (readFlag .carry s) ∧ OnlyWrites [.a, .f] s t := by
  obtain ⟨t, ht, hr, hf, hw⟩ := onAccumulator_next
    (fun a fl => { res := ~~~a, flags := { fl with subtract := true, halfCarry := true } }) s
  refine ⟨t, ht, ?_, hf, hw⟩
  rw [regNat, hr]
  exact BitVec.toNat_not

/-- Settles O11: the result is the bitwise complement of A, whose number is 255 less that of A. -/
theorem complementKeepsZeroAndCarry : Obligations.ComplementKeepsZeroAndCarry := fun s =>
  ⟨decode_wordNone (k := .complement) rfl, complement_next s⟩

end Sys2Proof.Machine
end

section
/-! Accumulator-only rotates (spec/42_rotate_shift_swap.md R82, R83): what a move of A by one place with Zero cleared
does, whatever bit is moved in. -/

namespace Sys2Proof.Machine

/-- A moves right by one place: the bit moved in goes to bit 7, bit 0 to Carry, and Zero is cleared. -/
theorem shiftRightInA_next (top : Byte → Flags → Bool) (s : State) :
    ∃ t, onAccumulator (fun a fl => zeroCleared (shifted (shiftRightIn a (top a fl)) (a.getLsbD 0))) s = .next t ∧
      regNat .a t = regNat .a s / 2 + 128 * (top (readReg .a s) (readFlags s)).toNat ∧
      FlagsAre t false false false (decide (regNat .a s % 2 = 1)) ∧ OnlyWrites [.a, .f] s t := by
  obtain ⟨t, ht, hr, hf, hw⟩ := onAccumulator_next
    (fun a fl => zeroCleared (shifted (shiftRightIn a (top a fl)) (a.getLsbD 0))) s
  refine ⟨t, ht, ?_, hf.of_eq rfl rfl rfl (getLsbD_zero_eq_decide _), hw⟩
  rw [regNat, hr]
  exact shiftRightIn_toNat _ _

/-- A moves left by one place: the bit moved in goes to bit 0, bit 7 to Carry, and Zero is cleared. -/
theorem shiftLeftInA_next (low : Byte → Flags → Bool) (s : State) :
    ∃ t, onAccumulator (fun a fl => zeroCleared (shifted (shiftLeftIn a (low a fl)) (a.getLsbD 7))) s = .next t ∧
      regNat .a t = regNat .a s * 2 % 256 + (low (readReg .a s) (readFlags s)).toNat ∧
      FlagsAre t false false false (decide (regNat .a s ≥ 128)) ∧ OnlyWrites [.a, .f] s t := by
  obtain ⟨t, ht, hr, hf, hw⟩ := onAccumulator_next
    (fun a fl => zeroCleared (shifted (shiftLeftIn a (low a fl)) (a.getLsbD 7))) s
  refine ⟨t, ht, ?_, hf.of_eq rfl rfl rfl (getLsbD_seven_eq_decide _), hw⟩
  rw [regNat, hr]
  exact shiftLeftIn_toNat _ _

/-- Settles O13: either word decodes to its kind, which moves A by one place with the Carry flag before the command
moved in. -/
theorem accumulatorRotatesThroughCarryClearZero : Obligations.AccumulatorRotatesThroughCarryClearZero := by
  intro s
  constructor
  · exact ⟨decode_wordNone (k := .rotateRightA) rfl, shiftRightInA_next (fun _ fl => fl.carry) s⟩
  · exact ⟨decode_wordNone (k := .rotateLeftA) rfl, shiftLeftInA_next (fun _ fl => fl.carry) s⟩

end Sys2Proof.Machine
end

section
/-! BitTest (spec/43_bit.md R93): the words of both operand forms decode to their instructions, whatever the bit index,
and either form is `testBit` on the operand's value. -/

namespace Sys2Proof.Machine

theorem decode_wordBitReg_bitTest (b : BitVec 8) (r : Reg) :
    decode (wordBitReg Kind.bitTest.code b r) = .ok (.bitTestReg b r) := by
  rw [wordBitReg_eq, decode_joinFields .bitTest _ rfl]
  refine decodeBitSrc_eq_ok.2 (.inl ⟨rfl, ?_⟩)
  exact congrArg (Instr.bitTestReg b) (Reg.ofCode_code r)

theorem decode_wordBitVal_bitTest (b : BitVec 8) (v : Byte) :
    decode (wordBitVal Kind.bitTest.code b v) = .ok (.bitTestVal b v) := by
  rw [wordBitVal_eq, decode_joinFields .bitTest _ rfl]
  exact decodeBitSrc_eq_ok.2 (.inr ⟨rfl, rfl⟩)

/-- Settles O21: both words decode whatever the index, and `testBit` of the operand's value completes or is refused by
the index alone. -/
theorem bitTestWritesFlagsOnly : Obligations.BitTestWritesFlagsOnly := by
  intro s b r v
  have hReg := decode_wordBitReg_bitTest b r
  have hVal := decode_wordBitVal_bitTest b v
  constructor
  · intro hb
    exact ⟨⟨hReg, testBit_next hb (readReg r s) s⟩, ⟨hVal, testBit_next hb v s⟩⟩
  · intro hb
    exact ⟨⟨hReg, testBit_refused hb (readReg r s) s⟩, ⟨hVal, testBit_refused hb v s⟩⟩

end Sys2Proof.Machine
end

section
/-! Exceptions (spec/60_exceptions.md R96): a transaction is either refused from the state it found, or it answers
something else than InvalidOperand. -/

namespace Sys2Proof.Machine

/-- The two ways in which a transaction served from `s` ends: InvalidOperand is reported and nothing else is done
(R96), or another answer stands, or none, as after a reset. -/
inductive RefusedOrServed (s : State) : Result → Prop where
  | refused : RefusedOrServed s (.next (answer .invalidOperand s))
  | served (t : State) (h : t.response ≠ some .invalidOperand) : RefusedOrServed s (.next t)

/-- R57's shape: a check on the operands that refuses, before an operation that does not. -/
theorem RefusedOrServed.check {s t : State} (c : Prop) [Decidable c] (h : t.response ≠ some .invalidOperand) :
    RefusedOrServed s (if c then invalidOperand s else .next t) := by
  by_cases hc : c
  · rw [if_pos hc]
    exact .refused
  · rw [if_neg hc]
    exact .served t h

theorem onTarget_refusedOrServed (r : Reg) (op : Byte → Flags → Computed) (s : State) :
    RefusedOrServed s (onTarget r op s) :=
  .check _ nofun

theorem onTargetBit_refusedOrServed (b : BitVec 8) (r : Reg) (op : Byte → Byte) (s : State) :
    RefusedOrServed s (onTargetBit b r op s) :=
  .check _ nofun

theorem testBit_refusedOrServed (b : BitVec 8) (x : Byte) (s : State) : RefusedOrServed s (testBit b x s) :=
  .check _ nofun

/-- The formats T, BT, BS and BV have a check; an instruction of any other format answers Done. -/
theorem exec_refusedOrServed (i : Instr) (s : State) : RefusedOrServed s (exec i s) := by
  cases i with
  | increment r | decrement r | rotateRight r | rotateLeft r | rotateRightCarry r | rotateLeftCarry r
  | shiftLeftArithmetic r | shiftRightArithmetic r | shiftRightLogical r | swap r =>
    exact onTarget_refusedOrServed r _ s
  | bitSet b r => exact onTargetBit_refusedOrServed b r (· ||| bitMask b) s
  | bitReset b r => exact onTargetBit_refusedOrServed b r (· &&& ~~~bitMask b) s
  | bitTestReg b _ | bitTestVal b _ => exact testBit_refusedOrServed b _ s
  | _ => exact .served _ nofun

theorem executeCommand_refusedOrServed (w : Word) (s : State) : RefusedOrServed s (executeCommand w s) := by
  cases h : decode w with
  | ok i =>
    rw [executeCommand_of_ok h]
    exact exec_refusedOrServed i s
  | error e =>
    rw [executeCommand_of_error h]
    exact .refused

theorem serve_refusedOrServed (tx : Transaction) (s : State) : RefusedOrServed s (serve tx s) := by
  cases tx with
  | execute w => exact executeCommand_refusedOrServed w s
  | setRegisterPair hi lo _ => exact .check (hi = lo) nofun
  | _ => exact .served _ nofun

/-- Settles O37: an idle step keeps the state, and a transaction that reports InvalidOperand is a refused one. -/
theorem invalidOperandChangesNoRegister : Obligations.InvalidOperandChangesNoRegister := by
  intro s t hstep hresponse
  cases hpending : s.pending with
  | nil =>
    rw [step_of_idle hpending] at hstep
    cases hstep
    rfl
  | cons tx rest =>
    have hends := serve_refusedOrServed tx { s with pending := rest }
    rw [← step_of_pending hpending, hstep] at hends
    cases hends with
    | refused => rfl
    | served _ hne => exact absurd hresponse hne

end Sys2Proof.Machine
end

section
/-! Completion of every transaction (spec/70_reset_and_hazards.md R119): as each step completes the transaction it
takes and leaves those behind it presented (R42), a run as long as the caller's stream serves the whole stream. -/

namespace Sys2Proof.Machine

/-- Induction on what is presented: the first step serves the oldest transaction, the rest of the run the others. -/
theorem run_length_serves_all (txs : List Transaction) {s : State} (h : s.pending = txs) :
    ∃ t, Host.Core.run core txs.length s = .next t ∧ t.pending = [] := by
  induction txs generalizing s with
  | nil => exact ⟨s, rfl, h⟩
  | cons tx rest ih =>
    obtain ⟨u, -, hstep, hrest, -⟩ := oneTransactionAStepInOrder s tx rest h
    rw [List.length_cons, run_succ hstep]
    exact ih hrest

/-- Settles O34: the run is as long as the stream of the state it starts from. -/
theorem everyRunServesAllItsTransactions : Obligations.EveryRunServesAllItsTransactions := by
  intro s
  exact run_length_serves_all s.pending rfl

end Sys2Proof.Machine
end

section
/-! Decode of encode (spec/30_encoding.md R47 to R55): the fields of an instruction's word carry its kind's code and fit
its format, so the decoder of that format reads the operands back. -/

namespace Sys2Proof

theorem kind_encodeFields (i : Instr) : (encodeFields i).kind = i.kind.code := by
  cases i <;> rfl

/-- The fields of each format fit it, and a register read back from its code is that register. -/
theorem decodeKind_encodeFields (i : Instr) : decodeKind i.kind (encodeFields i) = .ok i := by
  cases i with
  | complementCarry | setCarry | complement | rotateRightA | rotateLeftA | rotateRightCarryA | rotateLeftCarryA =>
    exact decodeNone_eq_ok.2 ⟨rfl, rfl⟩
  | addReg r | addWithCarryReg r | subReg r | subWithCarryReg r | andReg r | orReg r | xorReg r | compareReg r =>
    exact decodeSrc_eq_ok.2 (.inl ⟨rfl, congrArg _ (Reg.ofCode_code r)⟩)
  | addVal v | addWithCarryVal v | subVal v | subWithCarryVal v | andVal v | orVal v | xorVal v | compareVal v =>
    exact decodeSrc_eq_ok.2 (.inr ⟨rfl, rfl⟩)
  | increment r | decrement r | rotateRight r | rotateLeft r | rotateRightCarry r | rotateLeftCarry r
  | shiftLeftArithmetic r | shiftRightArithmetic r | shiftRightLogical r | swap r =>
    exact decodeTgt_eq_ok.2 ⟨rfl, congrArg _ (Reg.ofCode_code r)⟩
  | addHL hi lo => exact decodePair_eq_ok.2 ⟨rfl, congrArg₂ _ (Reg.ofCode_code hi) (Reg.ofCode_code lo)⟩
  | bitTestReg b r => exact decodeBitSrc_eq_ok.2 (.inl ⟨rfl, congrArg _ (Reg.ofCode_code r)⟩)
  | bitTestVal b v => exact decodeBitSrc_eq_ok.2 (.inr ⟨rfl, rfl⟩)
  | bitSet b r | bitReset b r => exact decodeBitTgt_eq_ok.2 ⟨rfl, congrArg _ (Reg.ofCode_code r)⟩

/-- Settles O26: the decoder takes the word's fields, which are the encoder's, and reads the kind from them first. -/
theorem decodeOfEncodeIsTheInstruction : Obligations.DecodeOfEncodeIsTheInstruction := by
  intro i
  rw [encode, decode_joinFields i.kind _ (kind_encodeFields i)]
  exact decodeKind_encodeFields i

end Sys2Proof
end

section
/-! Every instruction against the domain checks (spec/30_encoding.md R57) and the reads/writes table (spec/10_state.md
R28). What the table asks of a command is said once of each shape in which a handler writes its results. -/

namespace Sys2Proof

/-! ## The domain checks -/

theorem Instr.wellFormed_iff {i : Instr} :
    i.wellFormed = true ↔ (∀ b, i.bitIndex = some b → b.toNat ≤ 7) ∧ i.target ≠ some .f := by
  rw [Instr.wellFormed, Bool.and_eq_true, Instr.bitIndexInDomain, Instr.targetInDomain]
  refine and_congr ?_ ?_
  · cases i.bitIndex <;> simp
  · cases i.target <;> simp

theorem Instr.not_wellFormed_iff {i : Instr} :
    ¬i.wellFormed = true ↔ (∃ b, i.bitIndex = some b ∧ b.toNat > 7) ∨ i.target = some .f := by
  simp only [Instr.wellFormed_iff, not_and_or, not_forall, not_le, exists_prop, not_not]

theorem Instr.ne_f_of_wellFormed {i : Instr} {r : Reg} (h : i.wellFormed = true) (hr : i.target = some r) :
    r ≠ .f := by
  rintro rfl
  exact (Instr.wellFormed_iff.1 h).2 hr

theorem Instr.bitIndex_le_of_wellFormed {i : Instr} {b : BitVec 8} (h : i.wellFormed = true)
    (hb : i.bitIndex = some b) : b.toNat ≤ 7 :=
  (Instr.wellFormed_iff.1 h).1 b hb

end Sys2Proof

namespace Sys2Proof.Machine

/-- An instruction that fails a check is of a format with that check, and its handler makes it first. -/
theorem exec_refused {i : Instr} (h : ¬i.wellFormed = true) (s : State) :
    exec i s = .next { s with response := some .invalidOperand } := by
  rw [Instr.not_wellFormed_iff] at h
  cases i with
  | increment r | decrement r | rotateRight r | rotateLeft r | rotateRightCarry r | rotateLeftCarry r
  | shiftLeftArithmetic r | shiftRightArithmetic r | shiftRightLogical r | swap r =>
    obtain rfl : r = .f := by simpa [Instr.bitIndex, Instr.target] using h
    rfl
  | bitSet b r => exact onTargetBit_refused (by simpa [Instr.bitIndex, Instr.target] using h) (· ||| bitMask b) s
  | bitReset b r =>
    exact onTargetBit_refused (by simpa [Instr.bitIndex, Instr.target] using h) (· &&& ~~~bitMask b) s
  | bitTestReg b _ | bitTestVal b _ =>
    exact testBit_refused (by simpa [Instr.bitIndex, Instr.target] using h) _ s
  | _ => simp [Instr.bitIndex, Instr.target] at h

theorem onTarget_of_ne_f {r : Reg} (h : r ≠ .f) (op : Byte → Flags → Computed) (s : State) :
    onTarget r op s = answerDone (commit r (op (readReg r s) (readFlags s)) s) := by
  simp [onTarget, targetBad, h]

/-! ## The flags by name -/

/-- The flag of this name among four. -/
def Flags.get (fl : Flags) : Flag → Bool
  | .zero => fl.zero
  | .subtract => fl.subtract
  | .halfCarry => fl.halfCarry
  | .carry => fl.carry

theorem get_readFlags (f : Flag) (s : State) : (readFlags s).get f = readFlag f s := by
  cases f <;> rfl

/-! ## The columns "writes" and Z, N, H, C -/

/-- The flag columns `eff` of a row hold of the flags before a command and after it. -/
def FlagsFollow (eff : Flag → FlagEffect) (before after : Flags) : Prop :=
  ∀ f, (eff f).holds (before.get f) (after.get f)

/-- A command from `s` is served as a row with these registers in "writes" and these flag columns says. -/
def WritesAsRow (dst : List Reg) (eff : Flag → FlagEffect) (s : State) (m : Result) : Prop :=
  ∃ t, m = .next t ∧
    (∀ q, q ≠ .f → q ∉ dst → readReg q t = readReg q s) ∧
    (∀ f, (eff f).holds (readFlag f s) (readFlag f t)) ∧
    t.pending = s.pending ∧ t.response = some .done

theorem OnlyWrites.writesAsRow {dst : List Reg} {eff : Flag → FlagEffect} {s t : State} {m : Result}
    (hwrites : OnlyWrites (dst ++ [.f]) s t) (hm : m = .next t) (hflags : FlagsFollow eff (readFlags s) (readFlags t)) :
    WritesAsRow dst eff s m := by
  refine ⟨t, hm, fun q hq hdst => hwrites.others q ?_, fun f => ?_, hwrites.stream, hwrites.answered⟩
  · simp [hq, hdst]
  · rw [← get_readFlags, ← get_readFlags]
    exact hflags f

theorem writesAsRow_commit {r : Reg} {eff : Flag → FlagEffect} {o : Computed} {s : State} (hr : r ≠ .f)
    (h : FlagsFollow eff (readFlags s) o.flags) : WritesAsRow [r] eff s (answerDone (commit r o s)) := by
  obtain ⟨-, hflags, hwrites⟩ := commit_done hr o s
  exact hwrites.writesAsRow rfl (hflags.readFlags_eq ▸ h)

theorem writesAsRow_onTarget {r : Reg} {eff : Flag → FlagEffect} {op : Byte → Flags → Computed} {s : State}
    (hr : r ≠ .f) (h : ∀ t fl, FlagsFollow eff fl (op t fl).flags) : WritesAsRow [r] eff s (onTarget r op s) := by
  rw [onTarget_of_ne_f hr]
  exact writesAsRow_commit hr (h _ _)

theorem writesAsRow_writeFlags {eff : Flag → FlagEffect} {fl : Flags} {s : State}
    (h : FlagsFollow eff (readFlags s) fl) : WritesAsRow [] eff s (answerDone (writeFlags fl s)) := by
  obtain ⟨t, ht, hflags, hwrites⟩ := writeFlags_next fl s
  exact hwrites.writesAsRow ht (hflags.readFlags_eq ▸ h)

theorem writesAsRow_testBit {b : BitVec 8} {x : Byte} {s : State} (hb : b.toNat ≤ 7) :
    WritesAsRow [] (flagRow .computed .cleared .set .unaffected) s (testBit b x s) := by
  obtain ⟨t, ht, hflags, hwrites⟩ := testBit_next hb x s
  exact hwrites.writesAsRow ht (hflags.readFlags_eq ▸ flag_cases trivial rfl rfl rfl)

/-- F is among the registers that a command of format BT leaves, and so are its flags. -/
theorem writesAsRow_onTargetBit {b : BitVec 8} {r : Reg} {op : Byte → Byte} {s : State} (hb : b.toNat ≤ 7)
    (hr : r ≠ .f) :
    WritesAsRow [r] (flagRow .unaffected .unaffected .unaffected .unaffected) s (onTargetBit b r op s) := by
  obtain ⟨t, ht, -, hwrites⟩ := onTargetBit_next hb hr op s
  have hkept (f : Flag) : readFlag f t = readFlag f s := by
    rw [readFlag, readFlag, hwrites.others .f (by simpa using hr.symm)]
  exact ⟨t, ht, fun q _ => hwrites.others q, flag_cases (hkept _) (hkept _) (hkept _) (hkept _), hwrites.stream,
    hwrites.answered⟩

theorem writesAsRow_addHL (hi lo : Reg) (s : State) :
    WritesAsRow [.h, .l] (flagRow .computed .cleared .computed .computed) s (execAddHL hi lo s) := by
  obtain ⟨t, ht, -, hflags, hwrites⟩ := addHL_next hi lo s
  exact hwrites.writesAsRow ht (hflags.readFlags_eq ▸ flag_cases trivial rfl trivial trivial)

/-- Each kind has the shape its handler has, and the flags its operation computes have its row's columns. -/
theorem exec_writesAsRow {i : Instr} (h : i.wellFormed = true) (s : State) :
    WritesAsRow i.writes i.flagEffect s (exec i s) := by
  cases i with
  | addReg _ | addVal _ | addWithCarryReg _ | addWithCarryVal _ | subReg _ | subVal _ | subWithCarryReg _
  | subWithCarryVal _ =>
    exact writesAsRow_commit nofun (flag_cases trivial rfl trivial trivial)
  | andReg _ | andVal _ | orReg _ | orVal _ | xorReg _ | xorVal _ =>
    exact writesAsRow_commit nofun (flag_cases trivial rfl rfl rfl)
  | rotateRightA | rotateLeftA | rotateRightCarryA | rotateLeftCarryA =>
    exact writesAsRow_commit nofun (flag_cases rfl rfl rfl trivial)
  | complement => exact writesAsRow_commit nofun (flag_cases rfl rfl rfl rfl)
  | compareReg _ | compareVal _ => exact writesAsRow_writeFlags (flag_cases trivial rfl trivial trivial)
  | complementCarry => exact writesAsRow_writeFlags (flag_cases rfl rfl rfl trivial)
  | setCarry => exact writesAsRow_writeFlags (flag_cases rfl rfl rfl rfl)
  | addHL hi lo => exact writesAsRow_addHL hi lo s
  | increment _ | decrement _ =>
    exact writesAsRow_onTarget (Instr.ne_f_of_wellFormed h rfl) fun _ _ => flag_cases trivial rfl trivial rfl
  | rotateRight _ | rotateLeft _ | rotateRightCarry _ | rotateLeftCarry _ | shiftLeftArithmetic _
  | shiftRightArithmetic _ | shiftRightLogical _ =>
    exact writesAsRow_onTarget (Instr.ne_f_of_wellFormed h rfl) fun _ _ => flag_cases trivial rfl rfl trivial
  | swap _ =>
    exact writesAsRow_onTarget (Instr.ne_f_of_wellFormed h rfl) fun _ _ => flag_cases trivial rfl rfl rfl
  | bitTestReg _ _ | bitTestVal _ _ => exact writesAsRow_testBit (Instr.bitIndex_le_of_wellFormed h rfl)
  | bitSet b _ =>
    exact writesAsRow_onTargetBit (op := (· ||| bitMask b)) (Instr.bitIndex_le_of_wellFormed h rfl)
      (Instr.ne_f_of_wellFormed h rfl)
  | bitReset b _ =>
    exact writesAsRow_onTargetBit (op := (· &&& ~~~bitMask b)) (Instr.bitIndex_le_of_wellFormed h rfl)
      (Instr.ne_f_of_wellFormed h rfl)

/-- Settles O23: a command that passes its checks is served as its row says. -/
theorem everyKindWritesAsTheTableSays : Obligations.EveryKindWritesAsTheTableSays :=
  fun s _ h => exec_writesAsRow h s

/-- Settles O25: a command that fails a check is refused, and one that passes both is served as its row says. -/
theorem domainChecksDecideTheResponse : Obligations.DomainChecksDecideTheResponse := by
  intro s i
  constructor
  · intro hfails
    exact exec_refused (Instr.not_wellFormed_iff.2 hfails) s
  · intro hpasses
    obtain ⟨t, ht, -, -, -, hdone⟩ := exec_writesAsRow (Instr.wellFormed_iff.2 hpasses) s
    exact ⟨t, ht, hdone⟩

/-! ## The column "reads" -/

/-- Two computations give the same result and, where the row `eff` computes a flag, the same flag. -/
structure Computed.AgreesOn (eff : Flag → FlagEffect) (o o' : Computed) : Prop where
  res : o.res = o'.res
  flags : ∀ f, eff f = .computed → o.flags.get f = o'.flags.get f

theorem Computed.AgreesOn.of_eq {eff : Flag → FlagEffect} {o o' : Computed} (h : o = o') : o.AgreesOn eff o' :=
  h ▸ ⟨rfl, fun _ _ => rfl⟩

/-- Two commands leave the same values in the registers `dst` and in the flags that `eff` computes. -/
def AgreeAsRow (dst : List Reg) (eff : Flag → FlagEffect) (m m' : Result) : Prop :=
  ∀ t t', m = .next t → m' = .next t' →
    (∀ q ∈ dst, readReg q t = readReg q t') ∧ ∀ f, eff f = .computed → readFlag f t = readFlag f t'

theorem agreeAsRow_of_next {dst : List Reg} {eff : Flag → FlagEffect} {m m' : Result} {t t' : State}
    (ht : m = .next t) (ht' : m' = .next t') (hregs : ∀ q ∈ dst, readReg q t = readReg q t')
    (hflags : ∀ f, eff f = .computed → (readFlags t).get f = (readFlags t').get f) : AgreeAsRow dst eff m m' := by
  rintro u u' hu hu'
  cases ht.symm.trans hu
  cases ht'.symm.trans hu'
  exact ⟨hregs, fun f hf => by rw [← get_readFlags, hflags f hf, get_readFlags]⟩

theorem agreeAsRow_commit {r : Reg} {eff : Flag → FlagEffect} {o o' : Computed} {s s' : State} (hr : r ≠ .f)
    (h : o.AgreesOn eff o') : AgreeAsRow [r] eff (answerDone (commit r o s)) (answerDone (commit r o' s')) := by
  obtain ⟨hres, hflags, -⟩ := commit_done hr o s
  obtain ⟨hres', hflags', -⟩ := commit_done hr o' s'
  refine agreeAsRow_of_next rfl rfl (List.forall_mem_singleton.2 ?_) ?_
  · rw [hres, hres', h.res]
  · rw [hflags.readFlags_eq, hflags'.readFlags_eq]
    exact h.flags

theorem agreeAsRow_onTarget {r : Reg} {eff : Flag → FlagEffect} {op : Byte → Flags → Computed} {s s' : State}
    (hr : r ≠ .f) (h : (op (readReg r s) (readFlags s)).AgreesOn eff (op (readReg r s') (readFlags s'))) :
    AgreeAsRow [r] eff (onTarget r op s) (onTarget r op s') := by
  rw [onTarget_of_ne_f hr, onTarget_of_ne_f hr]
  exact agreeAsRow_commit hr h

theorem agreeAsRow_writeFlags {eff : Flag → FlagEffect} {fl fl' : Flags} {s s' : State}
    (h : ∀ f, eff f = .computed → fl.get f = fl'.get f) :
    AgreeAsRow [] eff (answerDone (writeFlags fl s)) (answerDone (writeFlags fl' s')) := by
  obtain ⟨t, ht, hf, -⟩ := writeFlags_next fl s
  obtain ⟨t', ht', hf', -⟩ := writeFlags_next fl' s'
  refine agreeAsRow_of_next ht ht' nofun ?_
  rw [hf.readFlags_eq, hf'.readFlags_eq]
  exact h

theorem agreeAsRow_testBit {b : BitVec 8} {x : Byte} {s s' : State} (hb : b.toNat ≤ 7) :
    AgreeAsRow [] (flagRow .computed .cleared .set .unaffected) (testBit b x s) (testBit b x s') := by
  obtain ⟨t, ht, hf, -⟩ := testBit_next hb x s
  obtain ⟨t', ht', hf', -⟩ := testBit_next hb x s'
  refine agreeAsRow_of_next ht ht' nofun ?_
  rw [hf.readFlags_eq, hf'.readFlags_eq]
  exact flag_cases (fun _ => rfl) (fun _ => rfl) (fun _ => rfl) nofun

theorem agreeAsRow_onTargetBit {b : BitVec 8} {r : Reg} {op : Byte → Byte} {s s' : State} (hb : b.toNat ≤ 7)
    (hne : r ≠ .f) (h : readReg r s = readReg r s') :
    AgreeAsRow [r] (flagRow .unaffected .unaffected .unaffected .unaffected) (onTargetBit b r op s)
      (onTargetBit b r op s') := by
  obtain ⟨t, ht, hr, -⟩ := onTargetBit_next hb hne op s
  obtain ⟨t', ht', hr', -⟩ := onTargetBit_next hb hne op s'
  refine agreeAsRow_of_next ht ht' ?_ (flag_cases nofun nofun nofun nofun)
  simp [hr, hr', h]

theorem readReg_eq_of_pairNat_eq {hi lo : Reg} {t t' : State} (h : pairNat hi lo t = pairNat hi lo t') :
    readReg hi t = readReg hi t' ∧ readReg lo t = readReg lo t' := by
  have hlo := (readReg lo t).isLt
  have hlo' := (readReg lo t').isLt
  simp only [pairNat, regNat] at h
  constructor <;> apply BitVec.eq_of_toNat_eq <;> omega

theorem agreeAsRow_addHL {hi lo : Reg} {s s' : State} (hhl : pairNat .h .l s = pairNat .h .l s')
    (hp : pairNat hi lo s = pairNat hi lo s') :
    AgreeAsRow [.h, .l] (flagRow .computed .cleared .computed .computed) (execAddHL hi lo s)
      (execAddHL hi lo s') := by
  obtain ⟨t, ht, hsum, hf, -⟩ := addHL_next hi lo s
  obtain ⟨t', ht', hsum', hf', -⟩ := addHL_next hi lo s'
  rw [← hhl, ← hp] at hsum' hf'
  refine agreeAsRow_of_next ht ht' ?_ ?_
  · simpa using readReg_eq_of_pairNat_eq (hsum.trans hsum'.symm)
  · rw [hf.readFlags_eq, hf'.readFlags_eq]
    exact fun _ _ => rfl

theorem forall_mem_pair {P : Reg → Prop} {r r' : Reg} : (∀ q ∈ [r, r'], P q) ↔ P r ∧ P r' := by
  rw [List.forall_mem_cons, List.forall_mem_singleton]

/-- A command's operation is applied to what its row reads, and where it is given more, F, the rest reaches only flags
that the row does not compute. -/
theorem exec_agreeAsRow {i : Instr} {s s' : State} (h : i.wellFormed = true)
    (hreads : ∀ q ∈ i.reads, readReg q s = readReg q s')
    (hcarry : i.readsCarry = true → readFlag .carry s = readFlag .carry s') :
    AgreeAsRow i.writes i.flagEffect (exec i s) (exec i s') := by
  cases i with
  | addReg r | subReg r | andReg r | orReg r | xorReg r =>
    obtain ⟨ha, hr⟩ := forall_mem_pair.1 hreads
    exact agreeAsRow_commit nofun (.of_eq (by simp only [srcReg, ha, hr]))
  | addWithCarryReg r | subWithCarryReg r =>
    obtain ⟨ha, hr⟩ := forall_mem_pair.1 hreads
    exact agreeAsRow_commit nofun (.of_eq (by simp only [srcReg, readFlags_carry, ha, hr, hcarry rfl]))
  | addVal _ | subVal _ | andVal _ | orVal _ | xorVal _ =>
    have ha := hreads .a List.mem_cons_self
    exact agreeAsRow_commit nofun (.of_eq (by simp only [srcVal, ha]))
  | addWithCarryVal _ | subWithCarryVal _ =>
    have ha := hreads .a List.mem_cons_self
    exact agreeAsRow_commit nofun (.of_eq (by simp only [srcVal, readFlags_carry, ha, hcarry rfl]))
  | compareReg r =>
    obtain ⟨ha, hr⟩ := forall_mem_pair.1 hreads
    exact agreeAsRow_writeFlags fun _ _ => by simp only [srcReg, ha, hr]
  | compareVal _ =>
    have ha := hreads .a List.mem_cons_self
    exact agreeAsRow_writeFlags fun _ _ => by simp only [srcVal, ha]
  | addHL hi lo =>
    have hpair {q q' : Reg} (hq : q ∈ [.h, .l, hi, lo]) (hq' : q' ∈ [.h, .l, hi, lo]) :
        pairNat q q' s = pairNat q q' s' := by
      simp only [pairNat, regNat, hreads q hq, hreads q' hq']
    exact agreeAsRow_addHL (hpair (by simp) (by simp)) (hpair (by simp) (by simp))
  | increment r | decrement r =>
    have hr := hreads r List.mem_cons_self
    refine agreeAsRow_onTarget (Instr.ne_f_of_wellFormed h rfl) ?_
    rw [hr]
    exact ⟨rfl, flag_cases (fun _ => rfl) nofun (fun _ => rfl) nofun⟩
  | rotateRight r | rotateLeft r =>
    have hr := hreads r List.mem_cons_self
    refine agreeAsRow_onTarget (Instr.ne_f_of_wellFormed h rfl) (.of_eq ?_)
    simp only [rotateRightOf, rotateLeftOf, readFlags_carry, hr, hcarry rfl]
  | rotateRightCarry r | rotateLeftCarry r | shiftLeftArithmetic r | shiftRightArithmetic r | shiftRightLogical r
  | swap r =>
    have hr := hreads r List.mem_cons_self
    exact agreeAsRow_onTarget (Instr.ne_f_of_wellFormed h rfl) (.of_eq (hr ▸ rfl))
  | rotateRightA | rotateLeftA =>
    have ha := hreads .a List.mem_cons_self
    refine agreeAsRow_commit nofun (.of_eq ?_)
    simp only [rotateRightOf, rotateLeftOf, readFlags_carry, ha, hcarry rfl]
  | rotateRightCarryA | rotateLeftCarryA =>
    have ha := hreads .a List.mem_cons_self
    exact agreeAsRow_commit nofun (.of_eq (ha ▸ rfl))
  | complement =>
    have ha := hreads .a List.mem_cons_self
    exact agreeAsRow_commit nofun ⟨congrArg (~~~·) ha, flag_cases nofun nofun nofun nofun⟩
  | complementCarry =>
    refine agreeAsRow_writeFlags (flag_cases nofun nofun nofun fun _ => ?_)
    exact congrArg (!·) (hcarry rfl)
  | setCarry => exact agreeAsRow_writeFlags (flag_cases nofun nofun nofun nofun)
  | bitTestReg _ r =>
    have hr := hreads r List.mem_cons_self
    simp only [exec, execBitTestReg, srcReg, hr]
    exact agreeAsRow_testBit (Instr.bitIndex_le_of_wellFormed h rfl)
  | bitTestVal _ _ => exact agreeAsRow_testBit (Instr.bitIndex_le_of_wellFormed h rfl)
  | bitSet b r =>
    exact agreeAsRow_onTargetBit (op := (· ||| bitMask b)) (Instr.bitIndex_le_of_wellFormed h rfl)
      (Instr.ne_f_of_wellFormed h rfl) (hreads r List.mem_cons_self)
  | bitReset b r =>
    exact agreeAsRow_onTargetBit (op := (· &&& ~~~bitMask b)) (Instr.bitIndex_le_of_wellFormed h rfl)
      (Instr.ne_f_of_wellFormed h rfl) (hreads r List.mem_cons_self)

/-- Settles O24: what a kind's handler reads outside its row's registers and F.C reaches no register it writes and no
flag it computes. -/
theorem everyKindReadsAsTheTableSays : Obligations.EveryKindReadsAsTheTableSays :=
  fun _ _ t t' _ h hreads hcarry ht ht' => exec_agreeAsRow h hreads hcarry t t' ht ht'

end Sys2Proof.Machine
end

section
/-! Command words (spec/30_encoding.md R12, R47 to R60): the words that no row accepts are those the decoder rejects,
and a command ends as its decoding and its domain checks say. -/

namespace Sys2Proof

/-! ## Selectors and written forms -/

/-- Settles O30: the codes in order, and the two maps between registers and codes undo each other. -/
theorem registerCodesAreAClosedEnumeration : Obligations.RegisterCodesAreAClosedEnumeration :=
  ⟨rfl, Reg.ofCode_code, Reg.code_ofCode⟩

/-- Settles O29: the decoder is run on each word. -/
theorem writtenWordsDecode : Obligations.WrittenWordsDecode :=
  ⟨rfl, rfl, rfl, rfl, rfl, rfl, rfl, rfl, rfl, rfl, rfl⟩

/-! ## The kind code and the mode of a word -/

theorem toNat_kind_fieldsOf (w : Word) : (fieldsOf w).kind.toNat = w.toNat / 2 ^ 24 := by
  have hw := w.isLt
  simp only [fieldsOf, BitVec.extractLsb'_toNat, Nat.shiftRight_eq_div_pow]
  omega

theorem m_fieldsOf_eq_ofBool (w : Word) : (fieldsOf w).m = BitVec.ofBool (w.getLsbD 15) := by
  ext j hj
  obtain rfl : j = 0 := by omega
  simp [fieldsOf]

theorem Kind.code_bounds (k : Kind) : 0 < k.code.toNat ∧ k.code.toNat < 0x1E := by
  cases k <;> decide

theorem opcodeTable_mode : ∀ row ∈ opcodeTable, (fieldsOf row.bits).m = row.format.mode := by
  decide

/-- The kinds with a value-mode row (R51). -/
theorem opcodeTable_value_mode : ∀ row ∈ opcodeTable, row.format.mode = 1 →
    row.kind.code.toNat ∈ [0x01, 0x02, 0x04, 0x05, 0x06, 0x07, 0x08, 0x09, 0x1B] := by
  decide

end Sys2Proof

namespace Sys2Proof.Machine

/-! ## Words of no row -/

theorem matchesNoRow_of_forall {w : Word} (h : ∀ row ∈ opcodeTable, ¬row.accepts w = true) : matchesNoRow w :=
  List.filter_eq_nil_iff.2 h

theorem matchesNoRow_iff {w : Word} : matchesNoRow w ↔ ∃ e, decode w = .error e := by
  obtain ⟨haccepted, hrejected⟩ := decoderAgreesWithOpcodeTable w
  refine ⟨fun hnone => ?_, hrejected⟩
  cases hd : decode w with
  | error e => exact ⟨e, rfl⟩
  | ok i =>
    obtain ⟨-, row, hrow, -⟩ := haccepted i hd
    rw [matchesNoRow, hrow] at hnone
    cases hnone

theorem matchesNoRow_of_reserved_kind {w : Word} (h : w.toNat / 2 ^ 24 = 0 ∨ w.toNat / 2 ^ 24 ≥ 0x1E) :
    matchesNoRow w := by
  refine matchesNoRow_of_forall fun row hrow hacc => ?_
  have hkind := ((accepts_iff_fieldsOf hrow w).1 hacc).1
  have hbounds := row.kind.code_bounds
  rw [← hkind, toNat_kind_fieldsOf] at hbounds
  omega

/-- A row is known by its kind and mode, so a word with those of one row is accepted by that row or by none. -/
theorem matchesNoRow_of_unused_bit {w : Word} {row : Row} (hrow : row ∈ opcodeTable)
    (hkind : (fieldsOf w).kind = row.kind.code) (hmode : w.getLsbD 15 = row.bits.getLsbD 15)
    (h : w &&& row.mask ≠ row.bits) : matchesNoRow w := by
  refine matchesNoRow_of_forall fun row' hrow' hacc => h ?_
  obtain ⟨hkind', hfit⟩ := (accepts_iff_fieldsOf hrow' w).1 hacc
  have hk : row'.kind = row.kind := Kind.code_injective (hkind'.symm.trans hkind)
  have hm : row'.format.mode = row.format.mode := by
    rw [← Format.mode_of_fits hfit, ← opcodeTable_mode row hrow, m_fieldsOf_eq_ofBool, m_fieldsOf_eq_ofBool, hmode]
  obtain rfl := List.inj_on_of_nodup_map opcodeTable_nodup_kind_mode hrow' hrow (Prod.ext hk hm)
  exact eq_of_beq hacc

theorem matchesNoRow_of_no_value_mode {w : Word} (hbit : w.getLsbD 15 = true)
    (h : w.toNat / 2 ^ 24 ∉ [0x01, 0x02, 0x04, 0x05, 0x06, 0x07, 0x08, 0x09, 0x1B]) : matchesNoRow w := by
  refine matchesNoRow_of_forall fun row hrow hacc => h ?_
  obtain ⟨hkind, hfit⟩ := (accepts_iff_fieldsOf hrow w).1 hacc
  rw [← toNat_kind_fieldsOf, hkind]
  refine opcodeTable_value_mode row hrow ?_
  rw [← Format.mode_of_fits hfit, m_fieldsOf_eq_ofBool, hbit]
  rfl

/-- Settles O28: a word of no row is one the decoder rejects, and a row fixes its words' kind code, mode and unused
bits. -/
theorem wordsOfNoRowAreRefused : Obligations.WordsOfNoRowAreRefused := by
  refine ⟨?refused, fun w => matchesNoRow_of_reserved_kind, fun w row => matchesNoRow_of_unused_bit,
    fun w => matchesNoRow_of_no_value_mode⟩
  case refused =>
    intro s w rest hpending hnone
    obtain ⟨e, he⟩ := matchesNoRow_iff.1 hnone
    exact (step_of_pending hpending).trans (executeCommand_of_error he _)

/-! ## How a command ends -/

/-- Settles O31: the step serves the word, which is executed by its instruction's handler. -/
theorem stepRunsTheDecodedInstruction : Obligations.StepRunsTheDecodedInstruction :=
  fun _ _ _ _ hpending hdecode => (step_of_pending hpending).trans (executeCommand_of_ok hdecode _)

/-- A command is refused when its word decodes to nothing or its instruction fails a check; else it answers Done. -/
theorem executeCommand_next (w : Word) (s : State) :
    ∃ t, executeCommand w s = .next t ∧
      ((t.response = some .invalidOperand ∧ ∀ i, decode w = .ok i → ¬i.wellFormed = true) ∨
        (t.response = some .done ∧ ∃ i, decode w = .ok i ∧ i.wellFormed = true)) := by
  cases hd : decode w with
  | error e => exact ⟨_, executeCommand_of_error hd s, .inl ⟨rfl, nofun⟩⟩
  | ok i =>
    rw [executeCommand_of_ok hd]
    by_cases hi : i.wellFormed = true
    · obtain ⟨t, ht, -, -, -, hdone⟩ := exec_writesAsRow hi s
      exact ⟨t, ht, .inr ⟨hdone, i, rfl, hi⟩⟩
    · refine ⟨_, exec_refused hi s, .inl ⟨rfl, ?_⟩⟩
      rintro _ ⟨⟩
      exact hi

/-- Settles O32: the codes are those of `Response.code`, and a command is refused or answers Done. -/
theorem everyCommandAnswersOneOfTwoCodes : Obligations.EveryCommandAnswersOneOfTwoCodes := by
  refine ⟨rfl, rfl, fun s w rest hpending => ?_⟩
  obtain ⟨t, ht, hends⟩ := executeCommand_next w { s with pending := rest }
  exact ⟨t, (step_of_pending hpending).trans ht, (hends.imp And.left And.left).symm⟩

end Sys2Proof.Machine
end

section
/-! What a transaction depends on and when it is refused (spec/60_exceptions.md R97, R99; spec/10_state.md R18): the
result is a function of the registers and the transaction, and the refused transactions are those of R97's table. -/

namespace Sys2Proof.Machine

/-- Settles O36: either step serves the transaction from the same registers, on which alone the result depends. -/
theorem transactionResultDependsOnRegistersAlone : Obligations.TransactionResultDependsOnRegistersAlone := by
  intro s s' t t' tx rest rest' hregs hpending hpending' hstep hstep'
  obtain ⟨u, hu⟩ := serve_dependsOnRegistersAlone tx s.regs
  have ht : step s = .next { u with pending := rest } :=
    (step_of_pending hpending).trans (hu rest s.response)
  have ht' : step s' = .next { u with pending := rest' } := by
    rw [hregs] at hu
    exact (step_of_pending hpending').trans (hu rest' s'.response)
  cases ht.symm.trans hstep
  cases ht'.symm.trans hstep'
  exact ⟨rfl, rfl⟩

theorem step_congr_response {s : State} {tx : Transaction} {rest : List Transaction} (h : s.pending = tx :: rest)
    (a : Option Response) : step { s with response := a } = step s := by
  obtain ⟨u, hu⟩ := serve_dependsOnRegistersAlone tx s.regs
  have hstep : step s = .next { u with pending := rest } := (step_of_pending h).trans (hu rest s.response)
  rw [hstep]
  exact (step_of_pending (s := { s with response := a }) h).trans (hu rest a)

/-- Settles O39: a refused transaction leaves all but the answer, and the next one does not see the answer. -/
theorem refusedTransactionLeavesNoTrace : Obligations.RefusedTransactionLeavesNoTrace := by
  intro s t tx rest hpending hrest hstep hresponse
  obtain ⟨tx', rest', rfl⟩ := List.exists_cons_of_ne_nil hrest
  have hends := serve_refusedOrServed tx { s with pending := tx' :: rest' }
  rw [← step_of_pending hpending, hstep] at hends
  cases hends with
  | refused => exact step_congr_response (s := { s with pending := tx' :: rest' }) rfl _
  | served _ hne => exact absurd hresponse hne

/-! ## The causes of InvalidOperand -/

/-- Causes 1 and 2 are the domain checks of an instruction, causes 3 and 4 that there is no instruction. -/
theorem invalidCause_execute_iff {w : Word} :
    InvalidCause (.execute w) ↔ ∀ i, decode w = .ok i → ¬i.wellFormed = true := by
  constructor
  · rintro (⟨_, j, b, hd, hi, hb⟩ | ⟨_, j, hd, hi⟩ | ⟨_, hnone⟩) i hdi
    · cases hd.symm.trans hdi
      exact Instr.not_wellFormed_iff.2 (.inl ⟨b, hi, hb⟩)
    · cases hd.symm.trans hdi
      exact Instr.not_wellFormed_iff.2 (.inr hi)
    · obtain ⟨e, he⟩ := matchesNoRow_iff.1 hnone
      cases he.symm.trans hdi
  · intro h
    cases hd : decode w with
    | error e => exact .noRow w (matchesNoRow_iff.2 ⟨e, hd⟩)
    | ok i =>
      obtain ⟨b, hi, hb⟩ | hi := Instr.not_wellFormed_iff.1 (h i hd)
      · exact .bitIndex w i b hd hi hb
      · exact .targetF w i hd hi

theorem invalidCause_setRegisterPair_iff {hi lo : Reg} {v : Pair} :
    InvalidCause (.setRegisterPair hi lo v) ↔ hi = lo := by
  constructor
  · rintro ⟨⟩
    rfl
  · rintro rfl
    exact .pairHalves hi v

theorem serve_invalidOperand_iff {tx : Transaction} {s t : State} (h : serve tx s = .next t) :
    t.response = some .invalidOperand ↔ InvalidCause tx := by
  cases tx with
  | execute w =>
    rw [invalidCause_execute_iff]
    obtain ⟨u, hu, hends⟩ := executeCommand_next w s
    cases hu.symm.trans h
    obtain ⟨hresponse, hfails⟩ | ⟨hresponse, i, hi, hpasses⟩ := hends
    · exact iff_of_true hresponse hfails
    · exact iff_of_false (by simp [hresponse]) fun hfails => hfails i hi hpasses
  | setRegisterPair hi lo v =>
    rw [invalidCause_setRegisterPair_iff]
    by_cases heq : hi = lo
    · cases (if_pos heq).symm.trans h
      exact iff_of_true rfl heq
    · cases (if_neg heq).symm.trans h
      exact iff_of_false nofun heq
  | _ =>
    cases h
    exact iff_of_false nofun nofun

/-- Settles O38: the step serves the transaction, a command being refused by its word or its checks, a pair write by
its halves, and no other transaction at all. -/
theorem invalidOperandHasExactlyTheListedCauses : Obligations.InvalidOperandHasExactlyTheListedCauses := by
  intro s t tx rest hpending hstep
  exact serve_invalidOperand_iff ((step_of_pending hpending).symm.trans hstep)

/-! ## Between transactions, and reset -/

/-- Settles O35: a step with nothing presented is idle. -/
theorem idleStepKeepsState : Obligations.IdleStepKeepsState :=
  fun _ hpending => step_of_idle hpending

/-- Settles O51: reset reads nothing of the state but the caller's stream, which it keeps. -/
theorem resetTransactionForgetsEverything : Obligations.ResetTransactionForgetsEverything :=
  fun _ _ hpending => step_of_pending hpending

end Sys2Proof.Machine
end

section
/-! The invariant of F (spec/10_state.md R15, R16): each transaction leaves the register file as it was, writes it
through the operations that keep F's stored low nibble clear, or resets it. -/

namespace Sys2Proof.Machine

/-- The operation completes in a state that meets the invariant of F. -/
def LeavesLowNibbleClear (m : Result) : Prop :=
  ∃ t, m = .next t ∧ t.LowNibbleClear

theorem LeavesLowNibbleClear.refusedIf {s : State} {m : Result} (hs : s.LowNibbleClear) (c : Prop) [Decidable c]
    (h : LeavesLowNibbleClear m) : LeavesLowNibbleClear (if c then invalidOperand s else m) := by
  by_cases hc : c
  · rw [if_pos hc]
    exact ⟨_, rfl, hs⟩
  · rwa [if_neg hc]

theorem exec_leavesLowNibbleClear {s : State} (hs : s.LowNibbleClear) (i : Instr) :
    LeavesLowNibbleClear (exec i s) := by
  cases i with
  | increment _ | decrement _ | rotateRight _ | rotateLeft _ | rotateRightCarry _ | rotateLeftCarry _
  | shiftLeftArithmetic _ | shiftRightArithmetic _ | shiftRightLogical _ | swap _ =>
    exact .refusedIf hs _ ⟨_, rfl, commit_lowNibbleClear _ _ s⟩
  | bitSet _ r | bitReset _ r => exact .refusedIf hs _ ⟨_, rfl, writeReg_lowNibbleClear hs r _⟩
  | bitTestReg _ _ | bitTestVal _ _ => exact .refusedIf hs _ ⟨_, rfl, writeFlags_lowNibbleClear _ s⟩
  | compareReg _ | compareVal _ | complementCarry | setCarry | addHL _ _ =>
    exact ⟨_, rfl, writeFlags_lowNibbleClear _ _⟩
  | _ => exact ⟨_, rfl, commit_lowNibbleClear _ _ s⟩

theorem executeCommand_leavesLowNibbleClear {s : State} (hs : s.LowNibbleClear) (w : Word) :
    LeavesLowNibbleClear (executeCommand w s) := by
  cases hd : decode w with
  | ok i =>
    rw [executeCommand_of_ok hd]
    exact exec_leavesLowNibbleClear hs i
  | error e => exact ⟨_, executeCommand_of_error hd s, hs⟩

theorem serve_leavesLowNibbleClear {s : State} (hs : s.LowNibbleClear) (tx : Transaction) :
    LeavesLowNibbleClear (serve tx s) := by
  cases tx with
  | reset => exact ⟨_, rfl, ofBoot_lowNibbleClear Config.boot⟩
  | execute w => exact executeCommand_leavesLowNibbleClear hs w
  | getRegister _ | getRegisterPair _ _ | getFlag _ => exact ⟨_, rfl, hs⟩
  | setRegister r v => exact ⟨_, rfl, writeReg_lowNibbleClear hs r v⟩
  | setRegisterPair hi lo v => exact .refusedIf hs (hi = lo) ⟨_, rfl, writePair_lowNibbleClear hs hi lo v⟩
  | setFlag b f => exact ⟨_, rfl, writeFlag_lowNibbleClear f b s⟩

/-- Settles O48: an idle step keeps the state, and serving a transaction keeps the invariant. -/
theorem stepKeepsLowNibbleClear : Obligations.StepKeepsLowNibbleClear := by
  intro s t hs hstep
  cases hpending : s.pending with
  | nil =>
    cases (step_of_idle hpending).symm.trans hstep
    exact hs
  | cons tx rest =>
    obtain ⟨u, hu, hclear⟩ := serve_leavesLowNibbleClear (s := { s with pending := rest }) hs tx
    cases hu.symm.trans ((step_of_pending hpending).symm.trans hstep)
    exact hclear

/-- Settles O49: reset masks F's boot value. -/
theorem resetHasLowNibbleClear : Obligations.ResetHasLowNibbleClear :=
  ⟨ofBoot_lowNibbleClear Config.boot, ofBoot_lowNibbleClear⟩

end Sys2Proof.Machine
end

section
/-! The access port's writes (spec/10_state.md section 4): what a register, a pair and a flag hold after a write, F with
its low nibble dropped. -/

namespace Sys2Proof.Machine

/-! ## One register -/

/-- A write keeps the bits that the register has (R15). -/
theorem readReg_writeReg (r : Reg) (v : Byte) (s : State) :
    readReg r (writeReg r v s) = if r = .f then v &&& 0xF0#8 else v := by
  by_cases hr : r = .f
  · rw [if_pos hr, hr, readReg_f_writeReg_f]
  · rw [if_neg hr, readReg_writeReg_self hr]

/-- Settles O47: a read of F is masked, and a register reads as written or, another one having been written, as
before. -/
theorem flagsRegisterLowNibbleIsHardwired : Obligations.FlagsRegisterLowNibbleIsHardwired :=
  fun s r _ v => ⟨readReg_f_and_0F s, readReg_writeReg r v s, fun hq => readReg_writeReg_of_ne hq v s⟩

/-- Settles O41: the step is a write of the register, answered Done. -/
theorem setRegisterWritesOneRegister : Obligations.SetRegisterWritesOneRegister := by
  intro s r v rest hpending
  refine ⟨_, step_of_pending hpending, readReg_writeReg r v s, onlyWrites_done (fun q hq => ?_) rfl⟩
  exact readReg_writeReg_of_ne (List.ne_of_not_mem_cons hq) v _

/-! ## A pair -/

theorem readReg_writePair_hi {hi lo : Reg} (h : hi ≠ lo) (v : Pair) (s : State) :
    readReg hi (writePair hi lo v s) = if hi = .f then highByte v &&& 0xF0#8 else highByte v := by
  rw [writePair, readReg_writeReg_of_ne h, readReg_writeReg]

theorem readReg_writePair_lo (hi lo : Reg) (v : Pair) (s : State) :
    readReg lo (writePair hi lo v s) = if lo = .f then lowByte v &&& 0xF0#8 else lowByte v := by
  rw [writePair, readReg_writeReg]

theorem readReg_writePair_of_ne {q hi lo : Reg} (hhi : q ≠ hi) (hlo : q ≠ lo) (v : Pair) (s : State) :
    readReg q (writePair hi lo v s) = readReg q s := by
  rw [writePair, readReg_writeReg_of_ne hlo, readReg_writeReg_of_ne hhi]

theorem toNat_and_F0 (v : Byte) : (v &&& 0xF0#8).toNat = v.toNat / 16 * 16 := by
  revert v; decide

/-- The two cases of a masked write, as numbers. -/
theorem toNat_ite_and_F0 (c : Prop) [Decidable c] (v : Byte) :
    (if c then v &&& 0xF0#8 else v).toNat = if c then v.toNat / 16 * 16 else v.toNat := by
  rw [apply_ite BitVec.toNat, toNat_and_F0]

theorem step_setRegisterPair {s : State} {hi lo : Reg} {v : Pair} {rest : List Transaction}
    (hpending : s.pending = .setRegisterPair hi lo v :: rest) (h : hi ≠ lo) :
    step s = answerDone (writePair hi lo v { s with pending := rest }) :=
  (step_of_pending hpending).trans (if_neg h)

/-- Settles O43: the halves are refused when they are one register, else either reads as its byte of the value. -/
theorem setRegisterPairWritesTwoRegisters : Obligations.SetRegisterPairWritesTwoRegisters := by
  intro s hi lo v rest hpending
  constructor
  · intro h
    refine ⟨_, step_setRegisterPair hpending h, ?_, ?_, onlyWrites_done (fun q hq => ?_) rfl⟩
    · rw [regNat, readReg_answer, readReg_writePair_hi h, toNat_ite_and_F0, highByte_toNat]
    · rw [regNat, readReg_answer, readReg_writePair_lo, toNat_ite_and_F0, lowByte_toNat]
    · obtain ⟨hhi, hlo⟩ : q ≠ hi ∧ q ≠ lo := by simpa using hq
      exact readReg_writePair_of_ne hhi hlo v _
  · intro h
    exact (step_of_pending hpending).trans (if_pos h)

/-! ## The round trips of a pair -/

theorem highByte_append_lowByte (v : Pair) : highByte v ++ lowByte v = v :=
  BitVec.extractLsb'_append_extractLsb' (w := 8) (len := 8)

theorem highByte_append (x y : Byte) : highByte (x ++ y) = x :=
  BitVec.extractLsb'_append_eq_left

theorem lowByte_append (x y : Byte) : lowByte (x ++ y) = y :=
  BitVec.extractLsb'_append_eq_right

/-- The mask M of R24 is made of a mask for either half. -/
theorem readPair_writePair {hi lo : Reg} (h : hi ≠ lo) (v : Pair) (s : State) :
    readPair hi lo (writePair hi lo v s) =
      v &&& if lo = .f then 0xFFF0#16 else if hi = .f then 0xF0FF#16 else 0xFFFF#16 := by
  have hmask (m m' : Byte) : v &&& (m ++ m') = (highByte v &&& m) ++ (lowByte v &&& m') := by
    rw [← BitVec.and_append, highByte_append_lowByte]
  have hones (x : Byte) : x &&& 0xFF#8 = x := BitVec.and_allOnes
  rw [readPair, readReg_writePair_hi h, readReg_writePair_lo]
  by_cases hlo : lo = .f
  · rw [if_neg (hlo ▸ h), if_pos hlo, if_pos hlo, show 0xFFF0#16 = 0xFF#8 ++ 0xF0#8 from rfl, hmask, hones]
  · by_cases hhi : hi = .f
    · rw [if_neg hlo, if_neg hlo, if_pos hhi, if_pos hhi, show 0xF0FF#16 = 0xF0#8 ++ 0xFF#8 from rfl, hmask, hones]
    · rw [if_neg hlo, if_neg hlo, if_neg hhi, if_neg hhi, show 0xFFFF#16 = 0xFF#8 ++ 0xFF#8 from rfl, hmask, hones,
        hones]

/-- Writing a register with what it reads as changes nothing that can be read. -/
theorem readReg_writeReg_readReg (q r : Reg) (s : State) : readReg q (writeReg r (readReg r s) s) = readReg q s := by
  by_cases hq : q = r
  · subst hq
    rw [readReg_writeReg]
    split
    next hf => rw [hf, readReg_f_and_F0]
    next => rfl
  · exact readReg_writeReg_of_ne hq _ s

theorem readReg_writePair_readPair {hi lo : Reg} (h : hi ≠ lo) (q : Reg) (s : State) :
    readReg q (writePair hi lo (readPair hi lo s) s) = readReg q s := by
  rw [writePair, readPair, highByte_append, lowByte_append,
    ← readReg_writeReg_of_ne h.symm (readReg hi s) s, readReg_writeReg_readReg, readReg_writeReg_readReg]

/-- Settles O44: a pair reads as it was written save for F's low nibble, and a pair written as it reads is kept. -/
theorem pairRoundTrip : Obligations.PairRoundTrip := by
  intro s hi lo v rest h
  constructor
  · intro hpending
    refine ⟨_, (run_succ (step_setRegisterPair hpending h) 1).trans (run_succ (step_getRegisterPair rfl) 0), ?_⟩
    exact congrArg (some <| Response.pair ·) (readPair_writePair h v _)
  · intro hpending hv
    obtain rfl : v = readPair hi lo s := BitVec.eq_of_toNat_eq (hv.trans (readPair_toNat hi lo s).symm)
    refine ⟨_, (run_succ (step_getRegisterPair hpending) 1).trans (run_succ (step_setRegisterPair rfl h) 0), ?_⟩
    exact fun q => readReg_writePair_readPair h q s

/-! ## One flag -/

theorem flagBit_eq_selector (f : Flag) : flagBit f = 4 + f.selector.toNat := by
  cases f <;> rfl

/-- R27's formula shifts the value, the model chooses by it. -/
theorem withFlagBit_eq (v : Byte) (f : Flag) (b : Bool) :
    withFlagBit v f b = (v &&& ~~~(1#8 <<< (4 + f.selector.toNat))) |||
      ((BitVec.ofBool b).setWidth 8 <<< (4 + f.selector.toNat)) := by
  rw [withFlagBit, flagBit_eq_selector]
  cases b <;> simp

/-- No flag stands in the low nibble. -/
theorem withFlagBit_and_F0 {v : Byte} (hv : v &&& 0xF0#8 = v) (f : Flag) (b : Bool) :
    withFlagBit v f b &&& 0xF0#8 = withFlagBit v f b := by
  have hbit : (if b then 1#8 <<< flagBit f else 0) &&& 0xF0#8 = if b then 1#8 <<< flagBit f else 0 := by
    cases f <;> cases b <;> rfl
  rw [withFlagBit, BitVec.and_or_distrib_right, hbit, BitVec.and_assoc, BitVec.and_comm _ 0xF0#8,
    ← BitVec.and_assoc, hv]

theorem getLsbD_withFlagBit (v : Byte) (f g : Flag) (b : Bool) :
    (withFlagBit v f b).getLsbD (flagBit g) = if g = f then b else v.getLsbD (flagBit g) := by
  cases f <;> cases g <;> cases b <;> simp [withFlagBit, flagBit]

theorem readReg_f_writeFlag (f : Flag) (b : Bool) (s : State) :
    readReg .f (writeFlag f b s) = withFlagBit (readReg .f s) f b := by
  rw [writeFlag, readReg_f_writeReg_f, withFlagBit_and_F0 (readReg_f_and_F0 s)]

theorem readFlag_writeFlag (g f : Flag) (b : Bool) (s : State) :
    readFlag g (writeFlag f b s) = if g = f then b else readFlag g s := by
  rw [readFlag, readReg_f_writeFlag, getLsbD_withFlagBit, readFlag]

/-- Settles O45: getFlag answers the flag's bit, and setFlag writes F with that bit replaced. -/
theorem flagAccessorsReachOneFlag : Obligations.FlagAccessorsReachOneFlag := by
  refine ⟨rfl, by decide, fun s f rest => ⟨fun hpending => ?get, fun value hpending => ?set⟩⟩
  case get =>
    rw [← flagBit_eq_selector]
    exact step_of_pending hpending
  case set =>
    refine ⟨_, step_of_pending hpending, ?_, ?_, fun g hg => ?_, onlyWrites_done (fun q hq => ?_) rfl⟩
    · rw [readReg_answer, readReg_f_writeFlag, withFlagBit_eq]
      rfl
    · rw [readFlag_answer, readFlag_writeFlag, if_pos rfl]
    · rw [readFlag_answer, readFlag_writeFlag, if_neg hg]
      rfl
    · exact readReg_writeReg_of_ne (List.ne_of_not_mem_cons hq) _ _

end Sys2Proof.Machine
end

section
/-! Restoring a snapshot (spec/70_reset_and_hazards.md R113, R120): a register that has been written with its snapshot
value keeps it whatever is written after, since a later write is of another register or of the same value. -/

namespace Sys2Proof.Machine

theorem RegFile.set_set (rf : RegFile) (r : Reg) (v w : Byte) : (rf.set r w).set r v = rf.set r v := by
  cases r <;> rfl

theorem RegFile.set_comm {q r : Reg} (h : q ≠ r) (rf : RegFile) (v w : Byte) :
    (rf.set r w).set q v = (rf.set q v).set r w := by
  cases q <;> cases r <;> first | rfl | exact absurd rfl h

/-- The register file has `u`'s value in `r`: to write it there changes nothing. -/
def RegFile.HasValueOf (u : State) (r : Reg) (rf : RegFile) : Prop :=
  rf.set r (readReg r u) = rf

theorem RegFile.HasValueOf.set {u : State} {r : Reg} {rf : RegFile} (h : rf.HasValueOf u r) (q : Reg) :
    (rf.set q (readReg q u)).HasValueOf u r := by
  by_cases hr : r = q
  · subst hr
    exact RegFile.set_set rf r _ _
  · rw [HasValueOf, RegFile.set_comm hr, h]

theorem State.LowNibbleClear.f_and_F0 {u : State} (hu : u.LowNibbleClear) : u.regs.f &&& 0xF0#8 = u.regs.f := by
  calc u.regs.f &&& 0xF0#8 = (u.regs.f &&& 0xF0#8) ||| (u.regs.f &&& 0x0F#8) := by rw [hu]; exact BitVec.or_zero.symm
    _ = u.regs.f &&& 0xFF#8 := BitVec.and_or_distrib_left.symm
    _ = u.regs.f := BitVec.and_allOnes

theorem regs_eq_of_hasValueOf {u : State} (hu : u.LowNibbleClear) {rf : RegFile} (h : ∀ r, rf.HasValueOf u r) :
    rf = u.regs := by
  have hf : rf.f = u.regs.f := calc
    rf.f = readReg .f u &&& 0xF0#8 := (congrArg RegFile.f (h .f)).symm
    _ = readReg .f u := readReg_f_and_F0 u
    _ = u.regs.f := hu.f_and_F0
  exact (RegFile.mk.injEq ..).mpr ⟨(congrArg RegFile.a (h .a)).symm, (congrArg RegFile.b (h .b)).symm,
    (congrArg RegFile.c (h .c)).symm, (congrArg RegFile.d (h .d)).symm, (congrArg RegFile.e (h .e)).symm,
    (congrArg RegFile.h (h .h)).symm, (congrArg RegFile.l (h .l)).symm, hf⟩

/-- Induction on the writes still to come: each register has its snapshot value before them or gets it by one. -/
theorem run_restores (u : State) (order : List Reg) {s : State}
    (h : s.pending = order.map fun r => .setRegister r (readReg r u)) :
    ∃ t, Host.Core.run core order.length s = .next t ∧
      ∀ r, r ∈ order ∨ s.regs.HasValueOf u r → t.regs.HasValueOf u r := by
  induction order generalizing s with
  | nil => exact ⟨s, rfl, fun r hr => hr.resolve_left nofun⟩
  | cons q rest ih =>
    have hstep : step s = .next _ := step_of_pending h
    obtain ⟨t, ht, hvalues⟩ := ih (s := answer .done (writeReg q (readReg q u) { s with pending := _ })) rfl
    refine ⟨t, (run_succ hstep _).trans ht, fun r hr => hvalues r ?_⟩
    obtain hr | hr := hr
    · obtain rfl | hr := List.mem_cons.1 hr
      · exact .inr (RegFile.set_set s.regs r _ _)
      · exact .inl hr
    · exact .inr (hr.set q)

/-- Settles O52: as the order has every register, every register ends with its snapshot value. -/
theorem snapshotIsRestoredInAnyOrder : Obligations.SnapshotIsRestoredInAnyOrder := by
  intro s u order hu horder hpending
  obtain ⟨t, ht, hvalues⟩ := run_restores u order hpending
  exact ⟨t, ht, regs_eq_of_hasValueOf hu fun r => hvalues r (.inl (horder r))⟩

end Sys2Proof.Machine
end

section
/-! Commands on a target register (spec/40_arithmetic_logical.md R72, R73; spec/42_rotate_shift_swap.md R80 to R92;
spec/43_bit.md R94, R95): the words of a format with a target decode to their instructions, F is refused, and the
rotates, the shifts and Swap differ in the byte and the bit that they compute. -/

namespace Sys2Proof.Machine

/-! ## A kind of format T -/

/-- A kind of format T whose handler is `onTarget` of the operation `op` completes on the registers other than F as
`op` does, and is refused on F. -/
theorem completesOnTargets_of_op {k : Kind} {onReg : Reg → Instr} {s : State} {P : Reg → State → Prop}
    (hk : decodeKind k = decodeTgt k onReg) (op : Byte → Flags → Computed)
    (hexec : ∀ r, exec (onReg r) s = onTarget r op s)
    (hop : ∀ r, r ≠ .f → ∃ t, onTarget r op s = .next t ∧ P r t) : CompletesOnTargets k.code onReg s P := by
  have hdecode (r : Reg) : decode (wordReg k.code r) = .ok (onReg r) := by
    rw [wordReg_eq, decode_joinFields k _ rfl, hk, decodeTgt_eq_ok]
    exact ⟨rfl, congrArg onReg (Reg.ofCode_code r)⟩
  refine ⟨fun r hr => ⟨hdecode r, ?_⟩, hdecode .f, ?_⟩
  · rw [hexec]
    exact hop r hr
  · rw [hexec]
    exact onTarget_f op s

/-- Settles O7: either kind of format T changes its register by one. -/
theorem incrementDecrementKeepCarry : Obligations.IncrementDecrementKeepCarry := by
  intro s
  constructor
  · exact completesOnTargets_of_op (k := .increment) rfl incrementOf (fun _ => rfl) fun _ hr => increment_next hr s
  · exact completesOnTargets_of_op (k := .decrement) rfl decrementOf (fun _ => rfl) fun _ hr => decrement_next hr s

/-! ## Rotates, shifts and Swap -/

/-- An operation that gives a byte and the bit shifted out, on a register other than F: Zero from the byte. -/
theorem shifted_next {r : Reg} (hr : r ≠ .f) (res : Byte → Flags → Byte) (out : Byte → Bool) (s : State) :
    ∃ t, onTarget r (fun t fl => shifted (res t fl) (out t)) s = .next t ∧
      readReg r t = res (readReg r s) (readFlags s) ∧
      FlagsAre t (decide (regNat r t = 0)) false false (out (readReg r s)) ∧ OnlyWrites [r, .f] s t := by
  obtain ⟨t, ht, hres, hflags, hwrites⟩ := onTarget_next hr (fun t fl => shifted (res t fl) (out t)) s
  refine ⟨t, ht, hres, hflags.of_eq ?_ rfl rfl rfl, hwrites⟩
  rw [regNat, hres]
  exact isZero_eq_decide _

/-- A register other than F moves right by one place: the bit moved in goes to bit 7, bit 0 to Carry. -/
theorem shiftRightIn_next {r : Reg} (hr : r ≠ .f) (top : Byte → Flags → Bool) (s : State) :
    ∃ t, onTarget r (fun t fl => shifted (shiftRightIn t (top t fl)) (t.getLsbD 0)) s = .next t ∧
      regNat r t = regNat r s / 2 + 128 * (top (readReg r s) (readFlags s)).toNat ∧
      FlagsAre t (decide (regNat r t = 0)) false false (decide (regNat r s % 2 = 1)) ∧ OnlyWrites [r, .f] s t := by
  obtain ⟨t, ht, hres, hflags, hwrites⟩ :=
    shifted_next hr (fun t fl => shiftRightIn t (top t fl)) (fun t => t.getLsbD 0) s
  refine ⟨t, ht, ?_, hflags.of_eq rfl rfl rfl (getLsbD_zero_eq_decide _), hwrites⟩
  rw [regNat, hres, shiftRightIn_toNat, regNat]

/-- A register other than F moves left by one place: the bit moved in goes to bit 0, bit 7 to Carry. -/
theorem shiftLeftIn_next {r : Reg} (hr : r ≠ .f) (low : Byte → Flags → Bool) (s : State) :
    ∃ t, onTarget r (fun t fl => shifted (shiftLeftIn t (low t fl)) (t.getLsbD 7)) s = .next t ∧
      regNat r t = regNat r s * 2 % 256 + (low (readReg r s) (readFlags s)).toNat ∧
      FlagsAre t (decide (regNat r t = 0)) false false (decide (regNat r s ≥ 128)) ∧ OnlyWrites [r, .f] s t := by
  obtain ⟨t, ht, hres, hflags, hwrites⟩ :=
    shifted_next hr (fun t fl => shiftLeftIn t (low t fl)) (fun t => t.getLsbD 7) s
  refine ⟨t, ht, ?_, hflags.of_eq rfl rfl rfl (getLsbD_seven_eq_decide _), hwrites⟩
  rw [regNat, hres, shiftLeftIn_toNat, regNat]

/-- Settles O12: the bit moved in is the Carry flag before the command. -/
theorem rotatesThroughCarry : Obligations.RotatesThroughCarry := by
  intro s
  constructor
  · exact completesOnTargets_of_op (k := .rotateRight) rfl rotateRightOf (fun _ => rfl) fun _ hr =>
      shiftRightIn_next hr (fun _ fl => fl.carry) s
  · exact completesOnTargets_of_op (k := .rotateLeft) rfl rotateLeftOf (fun _ => rfl) fun _ hr =>
      shiftLeftIn_next hr (fun _ fl => fl.carry) s

theorem toNat_decide (p : Prop) [Decidable p] : (decide p).toNat = if p then 1 else 0 :=
  Bool.cond_decide p 1 0

theorem toNat_getLsbD_zero_readReg (r : Reg) (s : State) : ((readReg r s).getLsbD 0).toNat = regNat r s % 2 := by
  rw [getLsbD_zero_eq_decide, toNat_decide, regNat]
  split <;> omega

theorem toNat_getLsbD_seven_readReg (r : Reg) (s : State) : ((readReg r s).getLsbD 7).toNat = regNat r s / 128 := by
  have hlt := (readReg r s).isLt
  rw [getLsbD_seven_eq_decide, toNat_decide, regNat]
  split <;> omega

/-- Settles O14: the bit moved in is the one shifted out. -/
theorem eightBitRotatesCopyWrappedBit : Obligations.EightBitRotatesCopyWrappedBit := by
  intro s
  constructor
  · refine completesOnTargets_of_op (k := .rotateRightCarry) rfl rotateRightCarryOf (fun _ => rfl) fun r hr => ?_
    have hnext := shiftRightIn_next hr (fun t _ => t.getLsbD 0) s
    rw [toNat_getLsbD_zero_readReg] at hnext
    exact hnext
  · refine completesOnTargets_of_op (k := .rotateLeftCarry) rfl rotateLeftCarryOf (fun _ => rfl) fun r hr => ?_
    have hnext := shiftLeftIn_next hr (fun t _ => t.getLsbD 7) s
    rw [toNat_getLsbD_seven_readReg] at hnext
    exact hnext

/-- Settles O15: the same two moves of A, with Zero cleared. -/
theorem accumulatorEightBitRotatesClearZero : Obligations.AccumulatorEightBitRotatesClearZero := by
  intro s
  have hright := shiftRightInA_next (fun t _ => t.getLsbD 0) s
  have hleft := shiftLeftInA_next (fun t _ => t.getLsbD 7) s
  rw [toNat_getLsbD_zero_readReg] at hright
  rw [toNat_getLsbD_seven_readReg] at hleft
  exact ⟨⟨decode_wordNone (k := .rotateRightCarryA) rfl, hright⟩,
    ⟨decode_wordNone (k := .rotateLeftCarryA) rfl, hleft⟩⟩

/-- Settles O16: the logical shifts move in a zero, and ShiftRightArithmetic bit 7 itself. -/
theorem shiftsMoveOnePlace : Obligations.ShiftsMoveOnePlace := by
  intro s
  refine ⟨?left, ?arithmetic, ?logical⟩
  case left =>
    exact completesOnTargets_of_op (k := .shiftLeftArithmetic) rfl shiftLeftArithmeticOf (fun _ => rfl) fun _ hr =>
      shiftLeftIn_next hr (fun _ _ => false) s
  case arithmetic =>
    refine completesOnTargets_of_op (k := .shiftRightArithmetic) rfl shiftRightArithmeticOf (fun _ => rfl)
      fun r hr => ?_
    obtain ⟨t, ht, hres, hflags, hwrites⟩ :=
      shifted_next hr (fun t _ => (t &&& 0x80#8) ||| (t >>> 1)) (fun t => t.getLsbD 0) s
    refine ⟨t, ht, ?_, hflags.of_eq rfl rfl rfl (getLsbD_zero_eq_decide _), hwrites⟩
    rw [regNat, hres]
    exact shiftRightArithmeticOf_res_toNat (readReg r s) (readFlags s)
  case logical =>
    exact completesOnTargets_of_op (k := .shiftRightLogical) rfl shiftRightLogicalOf (fun _ => rfl) fun _ hr =>
      shiftRightIn_next hr (fun _ _ => false) s

/-- Settles O17: the result has the two nibbles exchanged, and no bit is shifted out. -/
theorem swapExchangesNibbles : Obligations.SwapExchangesNibbles := by
  intro s
  refine completesOnTargets_of_op (k := .swap) rfl swapOf (fun _ => rfl) fun r hr => ?_
  obtain ⟨t, ht, hres, hflags, hwrites⟩ :=
    shifted_next hr (fun t _ => (t <<< 4) ||| (t >>> 4)) (fun _ => false) s
  refine ⟨t, ht, ?_, hflags, hwrites⟩
  rw [regNat, hres]
  exact swapOf_res_toNat (readReg r s) (readFlags s)

/-! ## Accumulator-only forms -/

/-- The accumulator-only form of an operation against the same operation on A as target (R88 (3)). -/
theorem zeroCleared_differs_in_zero (op : Byte → Flags → Computed) (s : State) :
    ∃ t u, onAccumulator (fun a fl => zeroCleared (op a fl)) s = .next t ∧ onTarget .a op s = .next u ∧
      (∀ q, q ≠ .f → readReg q t = readReg q u) ∧
      FlagsAre t false (readFlag .subtract u) (readFlag .halfCarry u) (readFlag .carry u) := by
  obtain ⟨t, ht, hres, hflags, hwrites⟩ := onAccumulator_next (fun a fl => zeroCleared (op a fl)) s
  obtain ⟨u, hu, hres', hflags', hwrites'⟩ := onTarget_next (r := .a) nofun op s
  refine ⟨t, u, ht, hu, fun q hq => ?_,
    hflags.of_eq rfl hflags'.subtract.symm hflags'.halfCarry.symm hflags'.carry.symm⟩
  by_cases hqa : q = .a
  · rw [hqa, hres, hres']
    rfl
  · rw [hwrites.others q (by simp [hq, hqa]), hwrites'.others q (by simp [hq, hqa])]

/-- Settles O19: either form is one operation, and the accumulator-only form clears Zero after it. -/
theorem accumulatorFormsDifferInZeroOnly : Obligations.AccumulatorFormsDifferInZeroOnly := by
  intro s
  simp only [List.forall_mem_cons, List.not_mem_nil, false_implies, implies_true, and_true]
  exact ⟨zeroCleared_differs_in_zero rotateRightOf s, zeroCleared_differs_in_zero rotateLeftOf s,
    zeroCleared_differs_in_zero rotateRightCarryOf s, zeroCleared_differs_in_zero rotateLeftCarryOf s⟩

/-! ## BitSet and BitReset -/

theorem decode_wordBitReg_of_tgt {k : Kind} {onReg : BitVec 8 → Reg → Instr}
    (hk : decodeKind k = decodeBitTgt k onReg) (b : BitVec 8) (r : Reg) :
    decode (wordBitReg k.code b r) = .ok (onReg b r) := by
  rw [wordBitReg_eq, decode_joinFields k _ rfl, hk, decodeBitTgt_eq_ok]
  exact ⟨rfl, congrArg (onReg b) (Reg.ofCode_code r)⟩

theorem getLsbD_bitMask (b : BitVec 8) {j : Nat} (hj : j < 8) : (bitMask b).getLsbD j = decide (j = b.toNat) := by
  refine (BitVec.getLsbD_twoPow b.toNat j).trans ?_
  by_cases h : j = b.toNat
  · simp [← h, hj]
  · simp [h, Ne.symm h]

theorem getLsbD_or_bitMask (t : Byte) (b : BitVec 8) {j : Nat} (hj : j < 8) :
    (t ||| bitMask b).getLsbD j = if j = b.toNat then true else t.getLsbD j := by
  rw [BitVec.getLsbD_or, getLsbD_bitMask b hj]
  by_cases h : j = b.toNat <;> simp [h]

theorem getLsbD_and_not_bitMask (t : Byte) (b : BitVec 8) {j : Nat} (hj : j < 8) :
    (t &&& ~~~bitMask b).getLsbD j = if j = b.toNat then false else t.getLsbD j := by
  rw [BitVec.getLsbD_and, BitVec.getLsbD_not, getLsbD_bitMask b hj]
  by_cases h : j = b.toNat <;> simp [h, hj]

/-- Settles O22: either kind decodes for every index and register, is `onTargetBit` of its operation on the mask, and
is refused by the index or by F. -/
theorem bitSetResetChangeOneBit : Obligations.BitSetResetChangeOneBit := by
  intro s b r
  have hset := decode_wordBitReg_of_tgt (k := .bitSet) rfl b r
  have hreset := decode_wordBitReg_of_tgt (k := .bitReset) rfl b r
  constructor
  · rintro ⟨hb, hr⟩
    obtain ⟨t, ht, hres, hwrites⟩ := onTargetBit_next hb hr (· ||| bitMask b) s
    obtain ⟨u, hu, hres', hwrites'⟩ := onTargetBit_next hb hr (· &&& ~~~bitMask b) s
    refine ⟨⟨hset, t, ht, fun j hj => ?_, hwrites⟩, ⟨hreset, u, hu, fun j hj => ?_, hwrites'⟩⟩
    · rw [hres]
      exact getLsbD_or_bitMask (readReg r s) b hj
    · rw [hres']
      exact getLsbD_and_not_bitMask (readReg r s) b hj
  · intro h
    exact ⟨⟨hset, onTargetBit_refused h (· ||| bitMask b) s⟩, ⟨hreset, onTargetBit_refused h (· &&& ~~~bitMask b) s⟩⟩

end Sys2Proof.Machine
end

section
/-! The laws of sums and differences (spec/40_arithmetic_logical.md R76 (1) to (3)): what a command leaves in its
registers and its two carries make up the exact result. -/

namespace Sys2Proof.Machine

/-- A sum of two numbers below `n`, reduced, and its carry. -/
theorem mod_add_carry {n x : Nat} (hx : x < 2 * n) : x % n + n * (decide (x > n - 1)).toNat = x := by
  rw [toNat_decide]
  by_cases h : x > n - 1
  · have hmod : x % n = x - n := by rw [Nat.mod_eq_sub_mod (by omega), Nat.mod_eq_of_lt (by omega)]
    rw [if_pos h, hmod]
    omega
  · rw [if_neg h, Nat.mod_eq_of_lt (by omega), Nat.mul_zero, Nat.add_zero]

/-- A difference of two numbers, reduced, and its borrow. -/
theorem emod_sub_borrow {n a y : Nat} (ha : a < n) (hy : y ≤ n) :
    ((a : Int) - y) % n - n * (decide (a < y)).toNat = (a : Int) - y := by
  rw [toNat_decide]
  by_cases h : a < y
  · have hmod : ((a : Int) - y) % n = (a : Int) - y + n := by
      rw [← Int.add_emod_right, Int.emod_eq_of_lt (by omega) (by omega)]
    rw [if_pos h, hmod]
    omega
  · rw [if_neg h, Int.emod_eq_of_lt (by omega) (by omega), Nat.cast_zero, mul_zero, sub_zero]

section SumsIntoA
variable {s t : State} {x : Byte} {cin : Nat} (hcin : cin ≤ 1)
include hcin

theorem sumIdentity_of_flags (hres : regNat .a t = (regNat .a s + x.toNat + cin) % 256)
    (hh : readFlag .halfCarry t = decide (regNat .a s % 16 + x.toNat % 16 + cin > 15))
    (hc : readFlag .carry t = decide (regNat .a s + x.toNat + cin > 255)) : SumIdentity s t x cin := by
  have ha : regNat .a s < 256 := (readReg .a s).isLt
  have hx := x.isLt
  have hnibble : (regNat .a s + x.toNat + cin) % 256 % 16 = (regNat .a s % 16 + x.toNat % 16 + cin) % 16 := by
    omega
  rw [SumIdentity, hres, hh, hc, hnibble]
  exact ⟨mod_add_carry (n := 256) (by omega), mod_add_carry (n := 16) (by omega)⟩

theorem differenceIdentity_of_flags {res : Int} (hres : res = ((regNat .a s : Int) - x.toNat - cin) % 256)
    (hh : readFlag .halfCarry t = decide (regNat .a s % 16 < x.toNat % 16 + cin))
    (hc : readFlag .carry t = decide (x.toNat + cin > regNat .a s)) : DifferenceIdentity s t x cin res := by
  have ha : regNat .a s < 256 := (readReg .a s).isLt
  have hx := x.isLt
  have hbyte := emod_sub_borrow (n := 256) ha (show x.toNat + cin ≤ 256 by omega)
  have hnibble := emod_sub_borrow (n := 16) (Nat.mod_lt (regNat .a s) (by decide))
    (show x.toNat % 16 + cin ≤ 16 by omega)
  have hmod : ((regNat .a s : Int) - x.toNat - cin) % 256 % 16 =
      ((regNat .a s : Int) % 16 - (x.toNat : Int) % 16 - cin) % 16 := by
    omega
  push_cast [← sub_sub] at hbyte hnibble
  rw [DifferenceIdentity, hres, hh, hc, hmod]
  exact ⟨hbyte, hnibble⟩

end SumsIntoA

theorem addHL_identity (hi lo : Reg) (s : State) : ∃ t, execAddHL hi lo s = .next t ∧ PairSumIdentity s t hi lo := by
  obtain ⟨t, ht, hres, hflags, -⟩ := addHL_next hi lo s
  have hlt (q q' : Reg) : pairNat q q' s < 65536 := readPair_toNat q q' s ▸ (readPair q q' s).isLt
  have h₁ := hlt .h .l
  have h₂ := hlt hi lo
  have htwelve : (pairNat .h .l s + pairNat hi lo s) % 65536 % 4096 =
      (pairNat .h .l s % 4096 + pairNat hi lo s % 4096) % 4096 := by
    omega
  refine ⟨t, ht, ?_⟩
  rw [PairSumIdentity, hres, hflags.carry, hflags.halfCarry, htwelve]
  exact ⟨mod_add_carry (n := 65536) (by omega), mod_add_carry (n := 4096) (by omega)⟩

/-- Settles O8: the result is the exact one reduced and each carry says whether it was, in the place of the whole and
in that of its low part. -/
theorem carriesMakeUpTheExactResult : Obligations.CarriesMakeUpTheExactResult := by
  intro s
  have hsum (x : Byte) (cin : Flags → Bool) : ∃ t, onAccumulator (fun a fl => sumOf a x (cin fl)) s = .next t ∧
      SumIdentity s t x (cin (readFlags s)).toNat := by
    obtain ⟨t, ht, hres, hflags, -⟩ := sum_next x cin s
    exact ⟨t, ht, sumIdentity_of_flags (Bool.toNat_le _) hres hflags.halfCarry hflags.carry⟩
  have hdifference (x : Byte) (cin : Flags → Bool) :
      ∃ t, onAccumulator (fun a fl => differenceOf a x (cin fl)) s = .next t ∧
        DifferenceIdentity s t x (cin (readFlags s)).toNat (regNat .a t) := by
    obtain ⟨t, ht, hres, hflags, -⟩ := difference_next x cin s
    exact ⟨t, ht, differenceIdentity_of_flags (Bool.toNat_le _) hres hflags.halfCarry hflags.carry⟩
  refine ⟨?add, ?addWithCarry, ?sub, ?subWithCarry, ?compare, ?addHL⟩
  case add =>
    exact completesInBothModes_of_op (k := .add) rfl addToA (fun _ => rfl) (fun _ => rfl) (hsum · fun _ => false)
  case addWithCarry =>
    exact completesInBothModes_of_op (k := .addWithCarry) rfl addWithCarryToA (fun _ => rfl) (fun _ => rfl)
      (hsum · Flags.carry)
  case sub =>
    exact completesInBothModes_of_op (k := .sub) rfl subFromA (fun _ => rfl) (fun _ => rfl)
      (hdifference · fun _ => false)
  case subWithCarry =>
    exact completesInBothModes_of_op (k := .subWithCarry) rfl subWithCarryFromA (fun _ => rfl) (fun _ => rfl)
      (hdifference · Flags.carry)
  case compare =>
    refine completesInBothModes_of_op (k := .compare) rfl compareWithA (fun _ => rfl) (fun _ => rfl) fun x => ?_
    obtain ⟨t, ht, hflags, -⟩ := compareWithA_flags x s
    refine ⟨t, ht, differenceIdentity_of_flags (Nat.zero_le 1) ?_ hflags.halfCarry hflags.carry⟩
    rw [Nat.cast_zero, sub_zero]
  case addHL => exact fun hi lo => ⟨decode_wordPair_addHL hi lo, addHL_identity hi lo s⟩

end Sys2Proof.Machine
end

section
/-! Commands that undo each other (spec/42_rotate_shift_swap.md R88 (1), (2); spec/40_arithmetic_logical.md R76 (5)). Of
a rotate's run only its register and Carry matter, on which it acts as a function with an inverse; the other pairs act
on the register alone. -/

namespace Sys2Proof.Machine

/-! ## Runs of commands -/

theorem execAll_cons {i : Instr} {s t : State} (h : exec i s = .next t) (l : List Instr) :
    execAll (i :: l) s = execAll l t := by
  rw [execAll, h]

/-- From every state the command leaves of what `obs` observes what `g` makes of it. -/
def ActsAs {α : Type} (obs : State → α) (i : Instr) (g : α → α) : Prop :=
  ∀ s, ∃ t, exec i s = .next t ∧ obs t = g (obs s)

theorem ActsAs.execAll_pair {α : Type} {obs : State → α} {i j : Instr} {g g' : α → α} (hi : ActsAs obs i g)
    (hj : ActsAs obs j g') (hinv : Function.LeftInverse g' g) (s : State) :
    ∃ t, execAll [i, j] s = .next t ∧ obs t = obs s := by
  obtain ⟨t, ht, hgt⟩ := hi s
  obtain ⟨u, hu, hgu⟩ := hj t
  refine ⟨u, (execAll_cons ht _).trans (execAll_cons hu _), ?_⟩
  rw [hgu, hgt, hinv]

theorem ActsAs.execAll_replicate {α : Type} {obs : State → α} {i : Instr} {g : α → α} (hi : ActsAs obs i g)
    (n : Nat) (s : State) : ∃ t, execAll (List.replicate n i) s = .next t ∧ obs t = g^[n] (obs s) := by
  induction n generalizing s with
  | zero => exact ⟨s, rfl, rfl⟩
  | succ n ih =>
    obtain ⟨t, ht, hgt⟩ := hi s
    obtain ⟨u, hu, hgu⟩ := ih t
    refine ⟨u, (execAll_cons ht _).trans hu, ?_⟩
    rw [hgu, hgt, Function.iterate_succ_apply]

/-- When the second command undoes the first, and `n + 1` of the first restore what is observed, the first undoes the
second and `n + 1` of the second restore it too. -/
theorem ActsAs.execAll_restores {α : Type} {obs : State → α} {i j : Instr} {g g' : α → α} (hi : ActsAs obs i g)
    (hj : ActsAs obs j g') (hinv : Function.LeftInverse g' g) {n : Nat} (hn : ∀ x, g^[n + 1] x = x) (s : State) :
    ∀ l ∈ [[i, j], [j, i], List.replicate (n + 1) i, List.replicate (n + 1) j],
      ∃ t, execAll l s = .next t ∧ obs t = obs s := by
  have hroot (x : α) : g (g^[n] x) = x := (Function.iterate_succ_apply' g n x).symm.trans (hn x)
  have hinv' : Function.LeftInverse g g' := fun x => calc
    g (g' x) = g (g' (g (g^[n] x))) := by rw [hroot]
    _ = g (g^[n] x) := by rw [hinv]
    _ = x := hroot x
  have hn' (x : α) : g'^[n + 1] x = x := calc
    g'^[n + 1] x = g'^[n + 1] (g^[n + 1] x) := by rw [hn]
    _ = x := hinv.iterate (n + 1) x
  simp only [List.forall_mem_cons, List.not_mem_nil, false_implies, implies_true, and_true]
  refine ⟨hi.execAll_pair hj hinv s, hj.execAll_pair hi hinv' s, ?_, ?_⟩
  · simpa only [hn] using hi.execAll_replicate (n + 1) s
  · simpa only [hn'] using hj.execAll_replicate (n + 1) s

/-! ## Rotates -/

/-- The nine bits of R80 and R81. -/
def byteAndCarry (r : Reg) (s : State) : Byte × Bool :=
  (readReg r s, readFlag .carry s)

def rotateNineLeft (p : Byte × Bool) : Byte × Bool :=
  (shiftLeftIn p.1 p.2, p.1.getLsbD 7)

def rotateNineRight (p : Byte × Bool) : Byte × Bool :=
  (shiftRightIn p.1 p.2, p.1.getLsbD 0)

def rotateEightLeft (t : Byte) : Byte :=
  shiftLeftIn t (t.getLsbD 7)

def rotateEightRight (t : Byte) : Byte :=
  shiftRightIn t (t.getLsbD 0)

theorem rotateNineRight_rotateNineLeft : Function.LeftInverse rotateNineRight rotateNineLeft := by
  rintro ⟨t, c⟩
  revert t c; decide

theorem rotateNineLeft_iterate_nine (p : Byte × Bool) : rotateNineLeft^[9] p = p := by
  obtain ⟨t, c⟩ := p
  revert t c; decide

theorem rotateEightRight_rotateEightLeft : Function.LeftInverse rotateEightRight rotateEightLeft := by
  intro t
  revert t; decide

theorem rotateEightLeft_iterate_eight (t : Byte) : rotateEightLeft^[8] t = t := by
  revert t; decide

section RotateActsAs
variable {r : Reg} (hr : r ≠ .f)
include hr

theorem actsAs_rotateLeft : ActsAs (byteAndCarry r) (.rotateLeft r) rotateNineLeft := fun s => by
  obtain ⟨t, ht, hres, hflags, -⟩ := onTarget_next hr rotateLeftOf s
  exact ⟨t, ht, Prod.ext hres hflags.carry⟩

theorem actsAs_rotateRight : ActsAs (byteAndCarry r) (.rotateRight r) rotateNineRight := fun s => by
  obtain ⟨t, ht, hres, hflags, -⟩ := onTarget_next hr rotateRightOf s
  exact ⟨t, ht, Prod.ext hres hflags.carry⟩

theorem actsAs_rotateLeftCarry : ActsAs (readReg r) (.rotateLeftCarry r) rotateEightLeft := fun s => by
  obtain ⟨t, ht, hres, -⟩ := onTarget_next hr rotateLeftCarryOf s
  exact ⟨t, ht, hres⟩

theorem actsAs_rotateRightCarry : ActsAs (readReg r) (.rotateRightCarry r) rotateEightRight := fun s => by
  obtain ⟨t, ht, hres, -⟩ := onTarget_next hr rotateRightCarryOf s
  exact ⟨t, ht, hres⟩

end RotateActsAs

/-- Settles O18: the rotates through Carry rotate nine bits and the other two rotate eight, one place at a time. -/
theorem rotatesAreInvertible : Obligations.RotatesAreInvertible := by
  intro s r hr
  constructor
  · intro l hl
    obtain ⟨t, ht, hrestored⟩ := (actsAs_rotateLeft hr).execAll_restores (actsAs_rotateRight hr)
      rotateNineRight_rotateNineLeft rotateNineLeft_iterate_nine s l hl
    exact ⟨t, ht, Prod.ext_iff.1 hrestored⟩
  · exact (actsAs_rotateLeftCarry hr).execAll_restores (actsAs_rotateRightCarry hr)
      rotateEightRight_rotateEightLeft rotateEightLeft_iterate_eight s

/-! ## Swap, Complement, Increment and Decrement -/

/-- Two commands on one register, the second of which takes the byte back: every register but F is restored, and F has
the flags of the second. -/
theorem execAll_pair_onTarget {r : Reg} (hr : r ≠ .f) {i j : Instr} {op op' : Byte → Flags → Computed}
    (hi : ∀ s, exec i s = onTarget r op s) (hj : ∀ s, exec j s = onTarget r op' s)
    (hinv : ∀ t fl fl', (op' (op t fl).res fl').res = t) (s : State) :
    ∃ u, execAll [i, j] s = .next u ∧ (∀ q, q ≠ .f → readReg q u = readReg q s) ∧
      readFlags u = (op' (op (readReg r s) (readFlags s)).res (op (readReg r s) (readFlags s)).flags).flags := by
  obtain ⟨t, ht, hres, hflags, hwrites⟩ := onTarget_next hr op s
  obtain ⟨u, hu, hres', hflags', hwrites'⟩ := onTarget_next hr op' t
  refine ⟨u, (execAll_cons ((hi s).trans ht) _).trans (execAll_cons ((hj t).trans hu) _), fun q hq => ?_, ?_⟩
  · by_cases hqr : q = r
    · rw [hqr, hres', hres, hinv]
    · have hmem : q ∉ [r, .f] := by simp [hqr, hq]
      rw [hwrites'.others q hmem, hwrites.others q hmem]
  · rw [hflags'.readFlags_eq, hres, hflags.readFlags_eq]

theorem swapOf_swapOf_res (t : Byte) (fl fl' : Flags) : (swapOf (swapOf t fl).res fl').res = t := by
  have ht := t.isLt
  apply BitVec.eq_of_toNat_eq
  rw [swapOf_res_toNat, swapOf_res_toNat]
  omega

theorem decrementOf_incrementOf_res (t : Byte) (fl fl' : Flags) :
    (decrementOf (incrementOf t fl).res fl').res = t := by
  have ht := t.isLt
  have hdecremented := decrementOf_res_toNat (incrementOf t fl).res fl'
  rw [incrementOf_res_toNat] at hdecremented
  apply BitVec.eq_of_toNat_eq
  omega

/-- Settles O20: each second command takes the byte back; Decrement keeps the Carry that Increment kept, and sets
Subtract. -/
theorem undoingPairsRestoreRegister : Obligations.UndoingPairsRestoreRegister := by
  intro s r hr
  refine ⟨?swap, ?complement, ?increment⟩
  case swap =>
    obtain ⟨u, hu, hregs, -⟩ := execAll_pair_onTarget hr (i := .swap r) (j := .swap r) (fun _ => rfl) (fun _ => rfl)
      swapOf_swapOf_res s
    exact ⟨u, hu, hregs⟩
  case complement =>
    obtain ⟨u, hu, hregs, -⟩ := execAll_pair_onTarget (r := .a) nofun (i := .complement) (j := .complement)
      (op := fun a fl => { res := ~~~a, flags := { fl with subtract := true, halfCarry := true } })
      (op' := fun a fl => { res := ~~~a, flags := { fl with subtract := true, halfCarry := true } })
      (fun _ => rfl) (fun _ => rfl) (fun _ _ _ => BitVec.not_not) s
    exact ⟨u, hu, hregs⟩
  case increment =>
    obtain ⟨u, hu, hregs, hflags⟩ := execAll_pair_onTarget hr (i := .increment r) (j := .decrement r) (fun _ => rfl)
      (fun _ => rfl) decrementOf_incrementOf_res s
    exact ⟨u, hu, hregs, congrArg Flags.carry hflags, congrArg Flags.subtract hflags⟩

end Sys2Proof.Machine
end
